-- ==== Sys2Proof/Word.lean ====
section
/-! DEFINITION. The word types of SBPC: a register is 64 bits as stored (`00_scope.md` R7, `DATA_BITS`),
a memory cell is one byte (`20_memory.md` R51). -/

namespace Sys2Proof

/-- A register as stored, and the data of the register port (R7, `DATA_BITS = 64`). -/
abbrev Word := BitVec 64

/-- The addressable unit: one channel of one pixel, or one payload byte (R51). -/
abbrev Byte := BitVec 8

/-- A register number of the register port (R31: register numbers are 8 bits). -/
abbrev RegNum := BitVec 8

end Sys2Proof
end

