-- ==== Sys2Proof/Config.lean ====
section
/-! DEFINITION. What is fixed for a machine and is not state: the constants of `00_scope.md` R6, the open
parameter `DIM_BITS` with its derived widths (R7), the memory spaces and their sizes (`20_memory.md` R50), and
the free values of the bytes whose content the spec leaves unspecified (`10_state.md` R34). -/

namespace Sys2Proof

/-- `HEADER_BITS`, the width of the length header (R6). -/
abbrev headerBits : Nat := 32

/-- `LSB_MIN` and `LSB_MAX`, the legal range of the depth (R6). -/
abbrev lsbMin : Nat := 1
@[inherit_doc lsbMin] abbrev lsbMax : Nat := 8

/-- `N_STORE_CH`, the channels used for storage, R, G and B (R6). -/
abbrev storeChannels : Nat := 3

/-- `N_CH`, the channels of a pixel, R, G, B and A, so the bytes of a pixel (R6, R53). -/
abbrev pixelBytes : Nat := 4

/-- `BYTE_BITS`, the bits of a payload byte (R6). -/
abbrev byteBits : Nat := 8

/-- `LEN_BITS`: legal payload lengths are below `2^LEN_BITS` (R7). -/
abbrev lenBits : Nat := 32

/-- The open parameter `DIM_BITS` of R7: any number from 1 to 29. -/
structure DimBits where
  /-- the number itself -/
  val : Nat
  /-- R7: `1 ≤ DIM_BITS` -/
  one_le : 1 ≤ val
  /-- R7: `DIM_BITS ≤ 29` -/
  le_max : val ≤ 29
  deriving DecidableEq, Repr

/-- The default the spec names for `DIM_BITS` (R7). -/
def DimBits.default : DimBits := ⟨16, by decide, by decide⟩

/-- `IDX_BITS = 2*DIM_BITS + 5` (R7). -/
abbrev DimBits.idxBits (d : DimBits) : Nat := 2 * d.val + 5

/-- Legal widths and heights are below this (R7, R22). -/
abbrev DimBits.dimLimit (d : DimBits) : Nat := 2 ^ d.val

/-- Legal bit indices are below this (R7, R22). -/
abbrev DimBits.idxLimit (d : DimBits) : Nat := 2 ^ d.idxBits

/-- The three memory spaces (`20_memory.md` R50). -/
inductive Space where
  /-- the source grid -/
  | src
  /-- the output grid -/
  | dst
  /-- the payload -/
  | pay
  deriving DecidableEq, Repr

/-- The space an id of the memory port names; id 3 names none (R50, R77). -/
def Space.ofId (id : BitVec 2) : Option Space :=
  match id.toNat with
  | 0 => some .src
  | 1 => some .dst
  | 2 => some .pay
  | _ => none

/-- The id of a space on the memory port (R50). -/
def Space.id : Space → BitVec 2
  | .src => 0#2
  | .dst => 1#2
  | .pay => 2#2

/-- The size of a space in bytes (R50). -/
def Space.size (d : DimBits) : Space → Nat
  | .src => 2 ^ (2 * d.val + 2)
  | .dst => 2 ^ (2 * d.val + 2)
  | .pay => 2 ^ 32

/-- FREE VALUE. What a byte holds that nothing has written since the last reset: `10_state.md` R34 leaves it
unspecified ("arbitrary, never as zero"). It depends on how many resets there were, on the space and on the
address; nothing can prove a value of it (log entries 5 and 6). -/
opaque Config.unspecifiedByte : Nat → Space → Nat → Byte

end Sys2Proof
end

