-- ==== Sys2Proof/Syntax.lean ====
section
/-! DEFINITION. The abstract instructions: the eight commands of `30_encoding.md` R80, the ten rows of
`spec/opcode_table.json`, the words that carry them (R76, R78), and what the host can do to the block
(`45_register_access.md` R175, `20_memory.md` R58, `70_reset_and_hazards.md` R210). -/

namespace Sys2Proof

/-- The eight commands of R80. -/
inductive Command where
  /-- `CUR.SEEK` -/
  | curSeek
  /-- `CUR.ADV` -/
  | curAdv
  /-- `BIT.GET` -/
  | bitGet
  /-- `BIT.PUT b` -/
  | bitPut (b : Bool)
  /-- `GCOPY` -/
  | gcopy
  /-- `CHKCAP` -/
  | chkcap
  /-- `ENCODE` -/
  | encode
  /-- `DECODE` -/
  | decode
  deriving DecidableEq, Repr

/-- The rows of the opcode table: the eight commands and the two register-port transactions. -/
inductive Instr where
  /-- `CUR.SEEK` (R102) -/
  | curSeek
  /-- `CUR.ADV` (R105) -/
  | curAdv
  /-- `BIT.GET` (R121) -/
  | bitGet
  /-- `BIT.PUT b` (R122) -/
  | bitPut (b : Bool)
  /-- `GCOPY` (R124) -/
  | gcopy
  /-- `CHKCAP` (R137) -/
  | chkcap
  /-- `ENCODE` (R146, R147) -/
  | encode
  /-- `DECODE` (R162) -/
  | decode
  /-- `WR rn, v` (R176) -/
  | wr (rn : RegNum) (v : Word)
  /-- `RD rn` (R177) -/
  | rd (rn : RegNum)
  deriving DecidableEq, Repr

/-- A command as the opcode-table row that names it. -/
def Command.toInstr : Command → Instr
  | .curSeek => .curSeek
  | .curAdv => .curAdv
  | .bitGet => .bitGet
  | .bitPut b => .bitPut b
  | .gcopy => .gcopy
  | .chkcap => .chkcap
  | .encode => .encode
  | .decode => .decode

/-- An encoded transaction. The table has two word formats: `C`, the 64-bit command word that is written to
`CMD` (R78), and `REGPORT`, the 73-bit register-port word (R76). -/
inductive TxWord where
  /-- the transaction `WR CMD, w`, given by its command word (R83: a command mnemonic is exactly that write) -/
  | cmd (w : Word)
  /-- a register-port transaction word -/
  | port (w : BitVec 73)
  deriving DecidableEq, Repr

/-- One thing the host can do to the block. -/
inductive HostEvent where
  /-- a register-port transaction or command issue, by its word -/
  | word (t : TxWord)
  /-- `MWR S, a, v` with `S` given by its id (R58, R77) -/
  | mwr (id : BitVec 2) (a : Nat) (v : Byte)
  /-- `MRD S, a` (R58, R77) -/
  | mrd (id : BitVec 2) (a : Nat)
  /-- reset, applied between transactions (R210) -/
  | reset
  deriving DecidableEq, Repr

end Sys2Proof
end

