-- ==== Sys2Proof/WellFormed.lean ====
section
/-! DEFINITION. Which instructions and host events are well formed. The fields of an instruction are bounded by
their types (an 8-bit register number, a 64-bit value, one bit), so every instruction is well formed; a
memory-port transaction must name a space and an address inside it (`20_memory.md` R58, `30_encoding.md` R77). -/

namespace Sys2Proof

/-- Well-formedness of an instruction, constructor by constructor: no field can leave its range (R76, R78). -/
def Instr.wf : Instr → Bool
  | .curSeek => true
  | .curAdv => true
  | .bitGet => true
  | .bitPut _ => true
  | .gcopy => true
  | .chkcap => true
  | .encode => true
  | .decode => true
  | .wr _ _ => true
  | .rd _ => true

/-- The space and address of a memory-port access are a transaction of the interface (R58): the id names a
space and the address is below its size. -/
def memPortOk (d : DimBits) (id : BitVec 2) (a : Nat) : Bool :=
  match Space.ofId id with
  | some sp => decide (a < sp.size d)
  | none => false

/-- Well-formedness of a host event. -/
def HostEvent.wf (d : DimBits) : HostEvent → Bool
  | .word _ => true
  | .mwr id a _ => memPortOk d id a
  | .mrd id a => memPortOk d id a
  | .reset => true

end Sys2Proof
end

