-- ==== Sys2Proof/Decode.lean ====
section
/-! DEFINITION. Decoding and encoding (`30_encoding.md` R76 to R82). The decoder is total: a 64-bit command word
is one of the eight commands or is rejected by name (R78, R81); every 73-bit register-port word is a transaction
(R76). The encoder is written from the same tables. -/

namespace Sys2Proof

/-- Why a command word is illegal (R81). -/
inductive DecodeError where
  /-- `op` is 0x00 or 0x09 .. 0xFF -/
  | unassignedOpcode
  /-- one of bits 63:9 is 1 -/
  | reservedBits
  /-- bit 8 is 1 in a command other than `BIT.PUT` -/
  | strayBit8
  deriving DecidableEq, Repr

/-- Field `op`, bits 7:0 of the command word (R78). -/
def cmdOp (w : Word) : BitVec 8 := w.extractLsb' 0 8

/-- Field `b`, bit 8 of the command word (R78, R79). -/
def cmdB (w : Word) : Bool := w.getLsbD 8

/-- The reserved field, bits 63:9 of the command word (R78). -/
def cmdReserved (w : Word) : BitVec 55 := w.extractLsb' 9 55

/-- A command that has no field `b`: bit 8 must be 0 (R78). -/
def withoutB (b : Bool) (c : Command) : Except DecodeError Command :=
  if b then .error .strayBit8 else .ok c

/-- The command a command word selects (R80), or the reason it selects none (R81). -/
def decodeCommand (w : Word) : Except DecodeError Command :=
  if cmdReserved w ≠ 0#55 then .error .reservedBits
  else
    match (cmdOp w).toNat with
    | 0x01 => withoutB (cmdB w) .curSeek
    | 0x02 => withoutB (cmdB w) .curAdv
    | 0x03 => withoutB (cmdB w) .bitGet
    | 0x04 => .ok (.bitPut (cmdB w))
    | 0x05 => withoutB (cmdB w) .gcopy
    | 0x06 => withoutB (cmdB w) .chkcap
    | 0x07 => withoutB (cmdB w) .encode
    | 0x08 => withoutB (cmdB w) .decode
    | _ => .error .unassignedOpcode

/-- Field `kind`, bit 72 of the register-port word: 1 is `WR`, 0 is `RD` (R76). -/
def portKind (w : BitVec 73) : Bool := w.getLsbD 72

/-- Field `rn`, bits 71:64 (R76). -/
def portReg (w : BitVec 73) : RegNum := w.extractLsb' 64 8

/-- Field `v`, bits 63:0, ignored for `RD` (R76). -/
def portVal (w : BitVec 73) : Word := w.extractLsb' 0 64

/-- The register-port transaction a word is (R76): every 73-bit word is one. -/
def decodePort (w : BitVec 73) : Instr :=
  if portKind w then .wr (portReg w) (portVal w) else .rd (portReg w)

/-- The instruction an encoded transaction is, or the reason its command word is illegal. -/
def decodeTx : TxWord → Except DecodeError Instr
  | .cmd w => (decodeCommand w).map Command.toInstr
  | .port w => .ok (decodePort w)

/-- The word of the opcode table's numbering, as the transaction it stands for: up to 64 bits it is a command
word, else a register-port word. A number that does not fit its format is no word (log entry 8). -/
def TxWord.ofTable (nbits w : Nat) : Option TxWord :=
  if nbits ≤ 64 then
    if w < 2 ^ 64 then some (.cmd (BitVec.ofNat 64 w)) else none
  else if w < 2 ^ 73 then some (.port (BitVec.ofNat 73 w)) else none

/-- The instruction the decoder reads from a word numbered as the opcode table numbers it. -/
def decodeTableWord (nbits w : Nat) : Option Instr :=
  match TxWord.ofTable nbits w with
  | some t => (decodeTx t).toOption
  | none => none

/-- The command word of a command: `match` of its row in R80, with `b` in bit 8 for `BIT.PUT`. -/
def encodeCommand : Command → Word
  | .curSeek => 0x001#64
  | .curAdv => 0x002#64
  | .bitGet => 0x003#64
  | .bitPut b => if b then 0x104#64 else 0x004#64
  | .gcopy => 0x005#64
  | .chkcap => 0x006#64
  | .encode => 0x007#64
  | .decode => 0x008#64

/-- The register-port word with fields `kind`, `rn` and `v` (R76). -/
def encodePort (kind : Bool) (rn : RegNum) (v : Word) : BitVec 73 :=
  BitVec.ofNat 73 (kind.toNat * 2 ^ 72 + rn.toNat * 2 ^ 64 + v.toNat)

/-- The words of an instruction. `RD` carries the conventional `v = 0` (R76, log entry 14). -/
def encode : Instr → TxWord
  | .curSeek => .cmd (encodeCommand .curSeek)
  | .curAdv => .cmd (encodeCommand .curAdv)
  | .bitGet => .cmd (encodeCommand .bitGet)
  | .bitPut b => .cmd (encodeCommand (.bitPut b))
  | .gcopy => .cmd (encodeCommand .gcopy)
  | .chkcap => .cmd (encodeCommand .chkcap)
  | .encode => .cmd (encodeCommand .encode)
  | .decode => .cmd (encodeCommand .decode)
  | .wr rn v => .port (encodePort true rn v)
  | .rd rn => .port (encodePort false rn 0#64)

/-- A transaction word as the opcode table counts it: its bits in whole bytes, and its value. -/
def TxWord.toTable : TxWord → Nat × Nat
  | .cmd w => (64, w.toNat)
  | .port w => (80, w.toNat)

/-- `mask` of the row a command word is tested against (R80). -/
def Command.mask : Command → Word
  | .curSeek => 0xFFFFFFFFFFFFFFFF#64
  | .curAdv => 0xFFFFFFFFFFFFFFFF#64
  | .bitGet => 0xFFFFFFFFFFFFFFFF#64
  | .bitPut _ => 0xFFFFFFFFFFFFFEFF#64
  | .gcopy => 0xFFFFFFFFFFFFFFFF#64
  | .chkcap => 0xFFFFFFFFFFFFFFFF#64
  | .encode => 0xFFFFFFFFFFFFFFFF#64
  | .decode => 0xFFFFFFFFFFFFFFFF#64

/-- `match` of that row (R80). -/
def Command.pattern : Command → Word
  | .curSeek => 0x0000000000000001#64
  | .curAdv => 0x0000000000000002#64
  | .bitGet => 0x0000000000000003#64
  | .bitPut _ => 0x0000000000000004#64
  | .gcopy => 0x0000000000000005#64
  | .chkcap => 0x0000000000000006#64
  | .encode => 0x0000000000000007#64
  | .decode => 0x0000000000000008#64

end Sys2Proof
end

