-- ==== Sys2Proof/Machine/State.lean ====
section
/-! DEFINITION. The state of the block as `10_state.md` R20 and R31 list it, the model's own fields beside it
(the open parameter, the host's pending transactions, the data last returned to the host, the reset counter), the
reasons a step can stop, and the state after reset (R34). -/

namespace Sys2Proof.Machine

/-- The channel of the cursor. R25 asks for "an exhaustive enumeration over {Red, Green, Blue}": a fourth
value cannot be written down. -/
inductive Channel where
  /-- index 0 -/
  | red
  /-- index 1 -/
  | green
  /-- index 2 -/
  | blue
  deriving DecidableEq, Repr

/-- The error kinds of `60_exceptions.md` R186, success included. -/
inductive ErrorKind where
  /-- code 0: success -/
  | ok
  /-- code 1: an operand register outside its legal range (R188) -/
  | invalidParameter
  /-- code 2: `Total < 32 + 8*PLEN` (R189) -/
  | capacityExceeded
  /-- code 3: `Total < 32` at decode time (R190) -/
  | imageTooSmall
  /-- code 4: `N*8 + 32 > Total` (R191) -/
  | invalidDeclaredLength
  /-- code 5: reserved for the host, never raised by the block (R192) -/
  | containerCodecError
  /-- code 6: cursor row at or beyond the height, or index at its maximum (R193) -/
  | outOfGrid
  /-- code 7: a command word that selects no command (R194) -/
  | illegalCommand
  deriving DecidableEq, Repr

/-- One memory space: the bytes written since the last reset, addresses strictly rising. An address that is not
listed holds a byte the spec leaves unspecified (log entry 5). -/
abbrev Memory := List Host.Cell

/-- The canonical form of a memory: addresses strictly rising, so no address is listed twice. An unlisted address
reads as no listed byte at all, so no entry can equal what it would read as (log entry 5). -/
abbrev Memory.wf (m : Memory) : Prop := m.Pairwise (fun p q => p.1 < q.1)

/-- The data the last read transaction returned to the host (R177, R58). -/
inductive Reply where
  /-- no read since reset -/
  | none
  /-- 64 bits, by `RD` -/
  | word (v : Word)
  /-- one byte, by `MRD` -/
  | byte (v : Byte)
  deriving DecidableEq, Repr

/-- The state of the block (R20), and of the model around it. -/
structure State where
  /-- `W` (0x00), grid width -/
  w : Word
  /-- `H` (0x01), grid height -/
  h : Word
  /-- `LSB` (0x02), bits used per channel -/
  lsb : Word
  /-- `PLEN` (0x03), payload length in bytes -/
  plen : Word
  /-- `ARG` (0x04), bit index argument -/
  arg : Word
  /-- `IDX` (0x05), bit index of the cursor -/
  idx : Word
  /-- `CURX` (0x06), column of the cursor -/
  curx : Word
  /-- `CURY` (0x07), row of the cursor -/
  cury : Word
  /-- `CURCH` (0x08), channel of the cursor -/
  curch : Channel
  /-- `CURSH` (0x09), bit position of the cursor inside the channel byte -/
  cursh : Word
  /-- `BITV` (0x0A), the bit most recently read by `BIT.GET` -/
  bitv : Bool
  /-- `STATUS.ERR` (0x0B), the outcome of the most recent command -/
  err : ErrorKind
  /-- `EAVAIL` (0x0C) -/
  eavail : Word
  /-- `EREQ` (0x0D) -/
  ereq : Word
  /-- `ELSB` (0x0E) -/
  elsb : Word
  /-- space `SRC`, the source grid -/
  src : Memory
  /-- space `DST`, the output grid -/
  dst : Memory
  /-- space `PAY`, the payload -/
  pay : Memory
  /-- the open parameter `DIM_BITS` (R7); no step changes it (log entry 1) -/
  dimBits : DimBits
  /-- how many resets have been applied: the argument of the free values (log entry 6) -/
  epoch : Nat
  /-- the data last returned to the host (log entry 4) -/
  reply : Reply
  /-- what the host will do next, oldest first (log entry 2) -/
  pending : List HostEvent
  deriving DecidableEq, Repr

/-- The reasons the machine stops with a fault: none. `45_register_access.md` R178: "There is no third outcome: no
command hangs, is cancelled, is suspended or returns partially" (log entry 11). -/
inductive Fault
  deriving DecidableEq, Repr

/-- The reasons a step is refused. -/
inductive Refusal where
  /-- an instruction without a meaning yet; raised by `exec`; safe -/
  | notModelled (mnemonic : String)
  /-- a memory-port access with space id 3; raised by `execMwr`, `execMrd`; R58 "a model refuses it"; safe -/
  | noSuchSpace
  /-- a memory-port access at or above the size of the space; raised by `execMwr`, `execMrd`; R58; safe -/
  | addressOutsideSpace
  deriving DecidableEq, Repr

/-- What a step or a meaning answers. -/
abbrev Outcome := Host.Outcome State Fault Refusal

/-- The state after reset (R34, R210): every register 0, so `STATUS` OK and the cursor at index 0; the three
memories unspecified; nothing pending and nothing returned. -/
def State.reset : State where
  w := 0
  h := 0
  lsb := 0
  plen := 0
  arg := 0
  idx := 0
  curx := 0
  cury := 0
  curch := .red
  cursh := 0
  bitv := false
  err := .ok
  eavail := 0
  ereq := 0
  elsb := 0
  src := []
  dst := []
  pay := []
  dimBits := DimBits.default
  epoch := 0
  reply := .none
  pending := []

end Sys2Proof.Machine
end

