-- ==== Sys2Proof/Machine/Operands.lean ====
section
/-! DEFINITION. Operand forms: bits and bit fields (`00_scope.md` R10), the cursor map and its advance
(`40_cursor.md` R101, R103, R107), grid addresses (`20_memory.md` R54), the bit stream (`30_encoding.md` R71,
R72, R74), and the legality tests of the operand registers (`10_state.md` R22). -/

namespace Sys2Proof.Machine

/-- `v[k]` of a byte (R10). -/
def bitOf (v : Byte) (k : Nat) : Bool := v.getLsbD k

/-- `SetBit(v, k, b)`: `v` with bit `k` made `b` (R10). -/
def setBit (v : Byte) (k : Nat) (b : Bool) : Byte :=
  if b then v ||| (1#8 <<< k) else v &&& ~~~(1#8 <<< k)

/-- The index of a channel: 0 = R, 1 = G, 2 = B (R25). -/
def Channel.index : Channel → Nat
  | .red => 0
  | .green => 1
  | .blue => 2

/-- The channel with a given index (R25). `CurMap` uses it on `0 .. 2` only; from 3 up it answers blue, DESIGN CHOICE
(log entry 15). -/
def Channel.ofIndex (n : Nat) : Channel :=
  match n with
  | 0 => .red
  | 1 => .green
  | _ => .blue

/-- A cursor position `(x, y, channel, shift)` (R101). -/
structure Pos where
  /-- column -/
  x : Nat
  /-- row -/
  y : Nat
  /-- channel -/
  ch : Channel
  /-- bit position inside the channel byte -/
  sh : Nat
  deriving DecidableEq, Repr

/-- `CurMap(w, l, i)`, the closed form (R101). The spec leaves it undefined for `w = 0` or `l = 0`; no command
evaluates it there, and what it answers there is a DESIGN CHOICE (log entry 15). -/
def curMap (w l i : Nat) : Pos where
  x := i / (l * storeChannels) % w
  y := i / (l * storeChannels) / w
  ch := Channel.ofIndex (i / l % storeChannels)
  sh := i % l

/-- The end of a row and of a pixel in `CurAdv`: the column steps, and the row when the column wraps (R103). -/
def nextPixel (w : Nat) (p : Pos) : Pos :=
  if p.x + 1 < w then ⟨p.x + 1, p.y, .red, 0⟩ else ⟨0, p.y + 1, .red, 0⟩

/-- `CurAdv(w, l, p)`, one step (R103): shift, then channel, then column, then row. R103 states it for tuples in range;
the same case distinction on any other tuple is a DESIGN CHOICE (log entry 15). -/
def curAdv (w l : Nat) (p : Pos) : Pos :=
  if p.sh + 1 < l then ⟨p.x, p.y, p.ch, p.sh + 1⟩
  else
    match p.ch with
    | .red => ⟨p.x, p.y, .green, 0⟩
    | .green => ⟨p.x, p.y, .blue, 0⟩
    | .blue => nextPixel w p

/-- `CurIdx(w, l, p)`, the inverse of `CurMap` (R107). -/
def curIdx (w l : Nat) (p : Pos) : Nat :=
  ((p.y * w + p.x) * storeChannels + p.ch.index) * l + p.sh

/-- `GridAddr(w, x, y, c)`, the byte address of channel offset `c` of pixel `(x, y)` (R54). -/
def gridAddr (w x y c : Nat) : Nat := pixelBytes * (y * w + x) + c

/-- The address of the channel byte a cursor position is in (R73, R120). -/
def Pos.addr (w : Nat) (p : Pos) : Nat := gridAddr w p.x p.y p.ch.index

/-- `HdrBit(n, i) = n[i]` (R71). R71 states it for `n < 2^32` and `i ≤ 31`; the same bit of any other number is a DESIGN
CHOICE (log entry 15). -/
def hdrBit (n i : Nat) : Bool := n.testBit i

/-- `StreamLen(n) = 32 + 8*n` (R72). -/
def streamLen (n : Nat) : Nat := headerBits + byteBits * n

/-- `StreamBit(n, pay, i)` (R72): the header bits, then the payload bytes, each least significant bit first.
R72 has no case for `i ≥ 32 + 8*n`: going on there with the bits of byte `(i - 32) div 8` of `pay`, beyond the payload,
is a DESIGN CHOICE (log entry 15). `ENCODE` takes no bit at such an index. -/
def streamBit (n : Nat) (pay : Nat → Byte) (i : Nat) : Bool :=
  if i < headerBits then hdrBit n i
  else bitOf (pay ((i - headerBits) / byteBits)) ((i - headerBits) % byteBits)

/-- The number whose bit `j` is `g (start + j)`, for `count` bits: the least-significant-first accumulation of
R74, one bit after the other. -/
def assemble (g : Nat → Bool) (start : Nat) : Nat → Nat
  | 0 => 0
  | j + 1 => assemble g start j + 2 ^ j * (g (start + j)).toNat

/-- `HdrVal`, the declared length (R74, R163). -/
def hdrVal (g : Nat → Bool) : Nat := assemble g 0 headerBits

/-- Payload byte `k` of a stream that is read back (R74). -/
def payloadByte (g : Nat → Bool) (k : Nat) : Byte :=
  BitVec.ofNat 8 (assemble g (headerBits + byteBits * k) byteBits)

/-- `LsbOk` (R22). -/
abbrev State.LsbOk (s : State) : Prop := lsbMin ≤ s.lsb.toNat ∧ s.lsb.toNat ≤ lsbMax

/-- `WOk` (R22). -/
abbrev State.WOk (s : State) : Prop := s.w.toNat < s.dimBits.dimLimit

/-- `WPos` (R22). -/
abbrev State.WPos (s : State) : Prop := 1 ≤ s.w.toNat

/-- `HOk` (R22). -/
abbrev State.HOk (s : State) : Prop := s.h.toNat < s.dimBits.dimLimit

/-- `LenOk` (R22). -/
abbrev State.LenOk (s : State) : Prop := s.plen.toNat < 2 ^ lenBits

/-- `ArgOk` (R22). -/
abbrev State.ArgOk (s : State) : Prop := s.arg.toNat < s.dimBits.idxLimit

/-- `Total = W * H * 3 * LSB`, exact (R9, R11, R135). -/
def State.total (s : State) : Nat := s.w.toNat * s.h.toNat * storeChannels * s.lsb.toNat

/-- The extent of the grid in bytes, `4*W*H` (R54). -/
def State.gridBytes (s : State) : Nat := pixelBytes * s.w.toNat * s.h.toNat

/-- The cursor registers as a position. -/
def State.pos (s : State) : Pos := ⟨s.curx.toNat, s.cury.toNat, s.curch, s.cursh.toNat⟩

end Sys2Proof.Machine
end

