-- ==== Sys2Proof/Machine/Flags.lean ====
section
/-! DEFINITION. The block's one flag `BITV` (`10_state.md` R27) and its status register `STATUS` (R28,
`60_exceptions.md` R186), as the register port reads them. No other condition codes exist (R27). -/

namespace Sys2Proof.Machine

/-- The code of an error kind (R186). -/
def ErrorKind.code : ErrorKind → BitVec 4
  | .ok => 0
  | .invalidParameter => 1
  | .capacityExceeded => 2
  | .imageTooSmall => 3
  | .invalidDeclaredLength => 4
  | .containerCodecError => 5
  | .outOfGrid => 6
  | .illegalCommand => 7

/-- `STATUS` as read: `ERR` in bits 3:0, bits 63:4 read as 0 (R28). -/
def statusWord (k : ErrorKind) : Word := k.code.zeroExtend 64

/-- `BITV` as read: the bit in bit 0, bits 63:1 read as 0 (R27). -/
def bitvWord (b : Bool) : Word := (BitVec.ofBool b).zeroExtend 64

/-- `CURCH` as read: 0, 1 or 2 (R25). -/
def channelWord (c : Channel) : Word := BitVec.ofNat 64 c.index

/-- `BITV` takes a bit just read (R27, R121). -/
def State.latchBit (s : State) (b : Bool) : State := { s with bitv := b }

/-- `STATUS.ERR` takes the outcome of a command (R28). -/
def State.setErr (s : State) (k : ErrorKind) : State := { s with err := k }

end Sys2Proof.Machine
end

