-- ==== Sys2Proof/Machine/Ops.lean ====
section
/-! DEFINITION. The named operations over memory and registers that the meanings share: the memory primitives
(`20_memory.md` R52), register writes with their side effects (`10_state.md` R23), the cursor registers, how a
command ends (`45_register_access.md` R178) and how an error is raised (`60_exceptions.md` R187), the bit of a grid
(`41_grid_bit_access.md` R120), the grid copy (R124) and the stream's placement (`43_encode.md` R147). -/

namespace Sys2Proof.Machine

/-- The byte listed for an address, if one was written since reset. -/
def loadByte : Memory → Nat → Option Byte
  | [], _ => none
  | (k, b) :: m, a => if a = k then some b else loadByte m a

/-- A memory with the byte at one address replaced, in canonical form. -/
def storeByte : Memory → Nat → Byte → Memory
  | [], a, v => [(a, v)]
  | (k, b) :: m, a, v =>
    if a < k then (a, v) :: (k, b) :: m
    else if a = k then (a, v) :: m
    else (k, b) :: storeByte m a v

/-- The cells of a space. -/
def State.cells (s : State) : Space → Memory
  | .src => s.src
  | .dst => s.dst
  | .pay => s.pay

/-- The state with the cells of one space replaced. -/
def State.setCells (s : State) (sp : Space) (m : Memory) : State :=
  match sp with
  | .src => { s with src := m }
  | .dst => { s with dst := m }
  | .pay => { s with pay := m }

/-- `MemRead(S, a, 1)` (R52): the byte most recently written there, or the unspecified initial content. -/
def memRead (s : State) (sp : Space) (a : Nat) : Byte :=
  (loadByte (s.cells sp) a).getD (Config.unspecifiedByte s.epoch sp a)

/-- `MemWrite(S, a, 1, v)` (R52): replaces that byte and no other. -/
def memWrite (s : State) (sp : Space) (a : Nat) (v : Byte) : State :=
  s.setCells sp (storeByte (s.cells sp) a v)

/-- The five cursor registers at an index and its position (R102, R105). -/
def State.setCursor (s : State) (i : Word) (p : Pos) : State :=
  { s with idx := i, curx := BitVec.ofNat 64 p.x, cury := BitVec.ofNat 64 p.y, curch := p.ch
           cursh := BitVec.ofNat 64 p.sh }

/-- The five cursor registers at index 0: the side effect of writing `W` or `LSB` (R23). -/
def State.clearCursor (s : State) : State :=
  { s with idx := 0, curx := 0, cury := 0, curch := .red, cursh := 0 }

/-- Register read (R177): registers 0x00 .. 0x0E zero-extended; `CMD` and unimplemented numbers read as 0. -/
def readReg (s : State) (rn : RegNum) : Word :=
  match rn.toNat with
  | 0x00 => s.w
  | 0x01 => s.h
  | 0x02 => s.lsb
  | 0x03 => s.plen
  | 0x04 => s.arg
  | 0x05 => s.idx
  | 0x06 => s.curx
  | 0x07 => s.cury
  | 0x08 => channelWord s.curch
  | 0x09 => s.cursh
  | 0x0A => bitvWord s.bitv
  | 0x0B => statusWord s.err
  | 0x0C => s.eavail
  | 0x0D => s.ereq
  | 0x0E => s.elsb
  | _ => 0

/-- Register write other than to `CMD` (R176): the five operand registers store the value, `W` and `LSB` zero the
cursor as well (R23), read-only and unimplemented registers ignore it (R31). -/
def writeReg (s : State) (rn : RegNum) (v : Word) : State :=
  match rn.toNat with
  | 0x00 => { s with w := v }.clearCursor
  | 0x01 => { s with h := v }
  | 0x02 => { s with lsb := v }.clearCursor
  | 0x03 => { s with plen := v }
  | 0x04 => { s with arg := v }
  | _ => s

/-- `PLEN` takes the length a `DECODE` found (R162 step 5). -/
def State.setPlen (s : State) (v : Word) : State := { s with plen := v }

/-- What an error records beside its code: `EAVAIL`, `EREQ`, `ELSB` (R29). -/
structure ErrorInfo where
  /-- for `EAVAIL` -/
  avail : Word
  /-- for `EREQ` -/
  req : Word
  /-- for `ELSB` -/
  lsb : Word
  deriving DecidableEq, Repr

/-- An error a command ends with: its kind, and what it records, if anything (R186). -/
structure Failure where
  /-- the kind -/
  kind : ErrorKind
  /-- the values recorded; `none` when the kind records nothing -/
  info : Option ErrorInfo
  deriving DecidableEq, Repr

/-- The three error-information registers written together (R29). -/
def State.recordInfo (s : State) : Option ErrorInfo → State
  | none => s
  | some e => { s with eavail := e.avail, ereq := e.req, elsb := e.lsb }

/-- `raise E(info)` (R187): the block's exception entry. `STATUS.ERR` takes the code, the error-information
registers what the kind records, nothing else changes, and control is the host's again. There is no saved program
counter, no mode, no handler and so no return operation (R198, R200). -/
def raise (f : Failure) (s : State) : Outcome :=
  .next ((s.recordInfo f.info).setErr f.kind)

/-- The end of a command that succeeds: `STATUS.ERR <- 0` (R28, R178). -/
def finish (s : State) : Outcome := .next (s.setErr .ok)

/-- The failure of a command that finds an operand register outside its legal range (R188). -/
def invalidParameter : Failure := ⟨.invalidParameter, none⟩

/-- The failure of a bit access outside the grid, or of an advance past the last index (R193). -/
def outOfGrid : Failure := ⟨.outOfGrid, none⟩

/-- The failure of a command word that selects no command (R194). -/
def illegalCommand : Failure := ⟨.illegalCommand, none⟩

/-- What `EAVAIL` records: `max(0, Total - 32) div 8` (R29; the subtraction of naturals stops at 0). -/
def State.availBytes (s : State) : Word := BitVec.ofNat 64 ((s.total - headerBits) / byteBits)

/-- The test `CHKCAP` and `ENCODE` begin with (R137, R146): the operand ranges, then the capacity. -/
def capacityTest (s : State) : Option Failure :=
  if ¬(s.LsbOk ∧ s.WOk ∧ s.HOk ∧ s.LenOk) then some invalidParameter
  else if s.total < streamLen s.plen.toNat then
    some ⟨.capacityExceeded, some ⟨s.availBytes, s.plen, s.lsb⟩⟩
  else none

/-- `ChanBit(S, w, p)`: the bit of a grid at a position (R120). -/
def chanBit (s : State) (sp : Space) (w : Nat) (p : Pos) : Bool :=
  bitOf (memRead s sp (p.addr w)) p.sh

/-- The write counterpart of `ChanBit` in `DST`: a read, `SetBit` and a write of one byte (R120, R122). -/
def putBit (s : State) (w : Nat) (p : Pos) (b : Bool) : State :=
  memWrite s .dst (p.addr w) (setBit (memRead s .dst (p.addr w)) p.sh b)

/-- The first `n` iterations of the copy loop of `GCOPY` and `ENCODE`: `DST[a] <- SRC[a]` for `a` from 0 up
(R124, R147). The loop writes `DST` alone, so `SRC` is read from the state at its start. -/
def copyBytes (s : State) : Nat → State
  | 0 => s
  | a + 1 => memWrite (copyBytes s a) .dst a (memRead s .src a)

/-- The bit of the stream of `PLEN` and `PAY` at index `i` (R72, R147). -/
def State.streamBit (s : State) (i : Nat) : Bool :=
  Machine.streamBit s.plen.toNat (memRead s .pay) i

/-- The position of stream index `i` in the grid (R73, R101). -/
def State.streamPos (s : State) (i : Nat) : Pos := curMap s.w.toNat s.lsb.toNat i

/-- The first `n` iterations of the placement loop of `ENCODE`: stream bit `i` into `DST` at `CurMap(W, LSB, i)`,
for `i` from 0 up (R147). The loop writes `DST` alone, so the stream and its positions are those at its start. -/
def placeBits (s : State) : Nat → State
  | 0 => s
  | i + 1 => putBit (placeBits s i) s.w.toNat (s.streamPos i) (s.streamBit i)

/-- `g(i)`: the bit `DECODE` reads at stream position `i` (R161). -/
def State.srcBit (s : State) (i : Nat) : Bool := chanBit s .src s.w.toNat (s.streamPos i)

/-- The first `n` iterations of the payload loop of `DECODE`: `PAY[k] <-` byte `k`, for `k` from 0 up (R162
step 4). The loop writes `PAY` alone, so `SRC` is read from the state at its start. -/
def unpackBytes (s : State) : Nat → State
  | 0 => s
  | k + 1 => memWrite (unpackBytes s k) .pay k (payloadByte s.srcBit k)

end Sys2Proof.Machine
end

