-- ==== Sys2Proof/Machine/BitAccess.lean ====
section
/-! DEFINITION. Single-bit access and the grid copy, `BIT.GET`, `BIT.PUT` and `GCOPY`
(`41_grid_bit_access.md`). -/

namespace Sys2Proof.Machine

/-- What a bit access tests before it touches memory (R121 to R123): the operands, then the row against the
height. -/
def bitAccessTest (s : State) : Option Failure :=
  if ¬(s.LsbOk ∧ s.WOk ∧ s.WPos ∧ s.HOk) then some invalidParameter
  else if s.h.toNat ≤ s.cury.toNat then some outOfGrid
  else none

/-- `BIT.GET` (R121): the bit of `SRC` at the cursor into `BITV`. -/
def execBitGet (s : State) : Outcome :=
  match bitAccessTest s with
  | some f => raise f s
  | none => finish (s.latchBit (chanBit s .src s.w.toNat s.pos))

/-- `BIT.PUT b` (R122): bit `b` into `DST` at the cursor. -/
def execBitPut (b : Bool) (s : State) : Outcome :=
  match bitAccessTest s with
  | some f => raise f s
  | none => finish (putBit s s.w.toNat s.pos b)

/-- `GCOPY` (R124): the grid of `SRC` into `DST`, all four channels. -/
def execGcopy (s : State) : Outcome :=
  if ¬(s.WOk ∧ s.HOk) then raise invalidParameter s
  else finish (copyBytes s s.gridBytes)

end Sys2Proof.Machine
end

