-- ==== Sys2Proof/Machine/Capacity.lean ====
section
/-! DEFINITION. The Capacity Checker, `CHKCAP` (`42_capacity.md`). -/

namespace Sys2Proof.Machine

/-- `CHKCAP` (R137): whether a payload of `PLEN` bytes fits. -/
def execChkcap (s : State) : Outcome :=
  match capacityTest s with
  | some f => raise f s
  | none => finish s

end Sys2Proof.Machine
end

