-- ==== Sys2Proof/Machine/Cursor.lean ====
section
/-! DEFINITION. The commands of the Bit-Position Cursor, `CUR.SEEK` and `CUR.ADV` (`40_cursor.md`). -/

namespace Sys2Proof.Machine

/-- `CUR.SEEK` (R102): the cursor at the closed-form position of index `ARG`. -/
def execCurSeek (s : State) : Outcome :=
  if ¬(s.LsbOk ∧ s.WOk ∧ s.WPos ∧ s.ArgOk) then raise invalidParameter s
  else finish (s.setCursor s.arg (curMap s.w.toNat s.lsb.toNat s.arg.toNat))

/-- `CUR.ADV` (R105, R106): the cursor one bit position forward; the last index stays where it is. -/
def execCurAdv (s : State) : Outcome :=
  if ¬(s.LsbOk ∧ s.WOk ∧ s.WPos) then raise invalidParameter s
  else if s.idx.toNat = s.dimBits.idxLimit - 1 then raise outOfGrid s
  else finish (s.setCursor (s.idx + 1) (curAdv s.w.toNat s.lsb.toNat s.pos))

end Sys2Proof.Machine
end

