-- ==== Sys2Proof/Machine/Decoder.lean ====
section
/-! DEFINITION. The Decoder, `DECODE` (`44_decode.md`). -/

namespace Sys2Proof.Machine

/-- The declared length `N` that the header of `SRC` holds (R162 step 2, R163). -/
def State.declaredLen (s : State) : Nat := hdrVal s.srcBit

/-- The tests of `DECODE` in their order (R162 steps 1 to 3, R164): operands, room for a header, the declared
length. -/
def decodeTest (s : State) : Option Failure :=
  if ¬(s.LsbOk ∧ s.WOk ∧ s.HOk) then some invalidParameter
  else if s.total < headerBits then some ⟨.imageTooSmall, none⟩
  else if s.total < streamLen s.declaredLen then
    some ⟨.invalidDeclaredLength, some ⟨s.availBytes, BitVec.ofNat 64 s.declaredLen, s.lsb⟩⟩
  else none

/-- The body of `DECODE` once its tests have passed (R162 steps 4 and 5): the payload bytes, then `PLEN`. -/
def decodeBody (s : State) : State :=
  (unpackBytes s s.declaredLen).setPlen (BitVec.ofNat 64 s.declaredLen)

/-- `DECODE` (R162). -/
def execDecode (s : State) : Outcome :=
  match decodeTest s with
  | some f => raise f s
  | none => finish (decodeBody s)

end Sys2Proof.Machine
end

