-- ==== Sys2Proof/Machine/Encoder.lean ====
section
/-! DEFINITION. The Encoder, `ENCODE` (`43_encode.md`). -/

namespace Sys2Proof.Machine

/-- The body of `ENCODE` once its checks have passed (R147): the copy of the grid, then the stream, header first. -/
def encodeBody (s : State) : State :=
  placeBits (copyBytes s s.gridBytes) (streamLen s.plen.toNat)

/-- `ENCODE` (R146, R147): the test of `CHKCAP`, then the body. -/
def execEncode (s : State) : Outcome :=
  match capacityTest s with
  | some f => raise f s
  | none => finish (encodeBody s)

end Sys2Proof.Machine
end

