-- ==== Sys2Proof/Machine/RegisterPort.lean ====
section
/-! DEFINITION. The register port, `WR` and `RD`, and command issue (`45_register_access.md`). -/

namespace Sys2Proof.Machine

/-- A command run to its end (R178). -/
def runCommand (c : Command) (s : State) : Outcome :=
  match c with
  | .curSeek => execCurSeek s
  | .curAdv => execCurAdv s
  | .bitGet => execBitGet s
  | .bitPut b => execBitPut b s
  | .gcopy => execGcopy s
  | .chkcap => execChkcap s
  | .encode => execEncode s
  | .decode => execDecode s

/-- Command issue (R178): a legal command word runs its command, an illegal one raises `IllegalCommand` before any
operand register is looked at (R194). -/
def issueCommand (v : Word) (s : State) : Outcome :=
  match decodeCommand v with
  | .ok c => runCommand c s
  | .error _ => raise illegalCommand s

/-- `WR rn, v` (R176): a write to `CMD` issues a command, any other write is a register write. -/
def execWr (rn : RegNum) (v : Word) (s : State) : Outcome :=
  if rn.toNat = 0x0F then issueCommand v s else .next (writeReg s rn v)

/-- `RD rn` (R177): the value goes back to the host and nothing else changes. -/
def execRd (rn : RegNum) (s : State) : Outcome :=
  .next { s with reply := .word (readReg s rn) }

end Sys2Proof.Machine
end

