-- ==== Sys2Proof/Machine/Dispatch.lean ====
section
/-! DEFINITION. The meaning of every row of the opcode table, one arm each. -/

namespace Sys2Proof.Machine

def exec (i : Instr) (s : State) : Host.Outcome State Fault Refusal :=
  match i with
  | .curSeek => Sys2Proof.Machine.execCurSeek s
  | .curAdv => Sys2Proof.Machine.execCurAdv s
  | .bitGet => Sys2Proof.Machine.execBitGet s
  | .bitPut b => Sys2Proof.Machine.execBitPut b s
  | .gcopy => Sys2Proof.Machine.execGcopy s
  | .chkcap => Sys2Proof.Machine.execChkcap s
  | .encode => Sys2Proof.Machine.execEncode s
  | .decode => Sys2Proof.Machine.execDecode s
  | .wr rn v => Sys2Proof.Machine.execWr rn v s
  | .rd rn => Sys2Proof.Machine.execRd rn s

end Sys2Proof.Machine
end

