-- ==== Sys2Proof/Machine/HostPort.lean ====
section
/-! DEFINITION. The host's side that the opcode table has no row for: the memory port (`20_memory.md` R58), reset
(`70_reset_and_hazards.md` R210), the idle block, and the pseudo-operations, each a list of real transactions
(`30_encoding.md` R84). -/

namespace Sys2Proof.Machine

/-- What an access of the memory port needs of its id and address, or why there is no such transaction (R58). -/
def withMemPort (id : BitVec 2) (a : Nat) (s : State) (k : Space → Outcome) : Outcome :=
  match Space.ofId id with
  | none => .refused .noSuchSpace
  | some sp => if a < sp.size s.dimBits then k sp else .refused .addressOutsideSpace

/-- `MWR S, a, v` (R58). -/
def execMwr (id : BitVec 2) (a : Nat) (v : Byte) (s : State) : Outcome :=
  withMemPort id a s fun sp => .next (memWrite s sp a v)

/-- `MRD S, a` (R58): the byte goes back to the host. -/
def execMrd (id : BitVec 2) (a : Nat) (s : State) : Outcome :=
  withMemPort id a s fun sp => .next { s with reply := .byte (memRead s sp a) }

/-- Reset between transactions (R210): every register 0, the memories unspecified anew (log entries 6 and 12). -/
def applyReset (s : State) : State :=
  { State.reset with dimBits := s.dimBits, epoch := s.epoch + 1, pending := s.pending }

/-- Nothing pending: the block waits for the host (R210, log entry 3). -/
def idle (s : State) : Outcome := .next s

/-- A `WR` as a host event. -/
def evWr (rn : RegNum) (v : Word) : HostEvent := .word (encode (.wr rn v))

/-- An `RD` as a host event. -/
def evRd (rn : RegNum) : HostEvent := .word (encode (.rd rn))

/-- A command as a host event (R83). -/
def evCmd (c : Command) : HostEvent := .word (encode c.toInstr)

/-- `SETGEOM w, h, l` (R84). -/
def setGeom (w h l : Word) : List HostEvent := [evWr 0x00 w, evWr 0x01 h, evWr 0x02 l]

/-- `CUR.MAP i` (R84). -/
def curMapOp (i : Word) : List HostEvent :=
  [evWr 0x04 i, evCmd .curSeek, evRd 0x06, evRd 0x07, evRd 0x08, evRd 0x09]

/-- `MWR S, a, b0`, `MWR S, a+1, b1` and so on: bytes in ascending address order. -/
def loadBytes (sp : Space) : Nat → List Byte → List HostEvent
  | _, [] => []
  | a, b :: bs => .mwr sp.id a b :: loadBytes sp (a + 1) bs

/-- `LOADPAY b0 b1 ..` (R84). -/
def loadPay (bs : List Byte) : List HostEvent :=
  loadBytes .pay 0 bs ++ [evWr 0x03 (BitVec.ofNat 64 bs.length)]

/-- A pixel `(r, g, b, a)` as `LOADGRID` takes it (R53, R84). -/
structure Pixel where
  /-- red -/
  r : Byte
  /-- green -/
  g : Byte
  /-- blue -/
  b : Byte
  /-- alpha -/
  a : Byte
  deriving DecidableEq, Repr

/-- The four bytes of a pixel in memory order (R53). -/
def Pixel.bytes (p : Pixel) : List Byte := [p.r, p.g, p.b, p.a]

/-- `LOADGRID S, p0 p1 ..` (R84). -/
def loadGrid (sp : Space) (ps : List Pixel) : List HostEvent :=
  loadBytes sp 0 (ps.flatMap Pixel.bytes)

/-- `DST2SRC` on the first `n` addresses, with the bytes the `MRD`s return in state `s` (R84): the host writes back
what it has just read. -/
def dst2src (s : State) : Nat → List HostEvent
  | 0 => []
  | a + 1 => dst2src s a ++ [.mrd Space.dst.id a, .mwr Space.src.id a (memRead s .dst a)]

end Sys2Proof.Machine
end

