-- ==== Sys2Proof/Machine/Step.lean ====
section
/-! DEFINITION. One step: one host transaction, a whole command included, or reset (`00_scope.md` R8,
`70_reset_and_hazards.md` R210). The block fetches nothing (`10_state.md` R24); the next transaction is the first
one the host has pending. -/

namespace Sys2Proof.Machine

/-- A transaction word run: the instruction it decodes to, or `IllegalCommand` for an illegal command word
(R178, R194). -/
def runWord (t : TxWord) (s : State) : Outcome :=
  match decodeTx t with
  | .ok i => exec i s
  | .error _ => raise illegalCommand s

/-- A host event run to its end. -/
def runEvent (e : HostEvent) (s : State) : Outcome :=
  match e with
  | .word t => runWord t s
  | .mwr id a v => execMwr id a v s
  | .mrd id a => execMrd id a s
  | .reset => .next (applyReset s)

/-- One step. -/
def step (s : State) : Host.Outcome State Fault Refusal :=
  match s.pending with
  | [] => idle s
  | e :: rest => runEvent e { s with pending := rest }

/-- The state with one more transaction for the host to issue first: the word of the opcode table's numbering that
the very next step runs. A number that is no word of either format leaves the state as it is (log entries 2, 8). -/
def State.withFetchWord (s : State) (nbits w : Nat) : State :=
  match TxWord.ofTable nbits w with
  | some t => { s with pending := .word t :: s.pending }
  | none => s

/-- A list of host events run one after the other, stopping at the first one that is refused. -/
def runEvents (s : State) : List HostEvent → Outcome
  | [] => .next s
  | e :: es =>
    match runEvent e s with
    | .next t => runEvents t es
    | .fault r => .fault r
    | .refused r => .refused r

end Sys2Proof.Machine
end

