-- ==== Sys2Proof/Safety.lean ====
section
/-! DEFINITION. What a good state is: the invariant of the machine that claims are stated with. It gathers what
`10_state.md` says of every state (R25, R26, R28, R29, R31) and what `20_memory.md` R50 says of every access. -/

namespace Sys2Proof.Machine

/-- The position of index 0, for every width and every depth (R23). -/
def Pos.origin : Pos := ⟨0, 0, .red, 0⟩

/-- A memory is in canonical form and lists only addresses inside its space (R50). -/
def MemoryInv (s : State) : Prop :=
  ∀ sp : Space, (s.cells sp).wf ∧ ∀ c ∈ s.cells sp, c.1 < sp.size s.dimBits

/-- The geometry the cursor is over is legal (R26). -/
abbrev State.GeomOk (s : State) : Prop := s.LsbOk ∧ s.WOk ∧ s.WPos

/-- The cursor invariant (R26): over a legal geometry the cursor is `CurMap` of its index, which is in range
(R106); otherwise it is at index 0, where the last write of `W` or `LSB` left it (R23). -/
def CursorInv (s : State) : Prop :=
  s.idx.toNat < s.dimBits.idxLimit ∧
  (s.GeomOk → s.pos = curMap s.w.toNat s.lsb.toNat s.idx.toNat) ∧
  (¬s.GeomOk → s.idx = 0 ∧ s.pos = Pos.origin)

/-- The ranges of R31 for the status and error-information registers; code 5 is never in `STATUS` (R192). -/
def ErrorInv (s : State) : Prop :=
  s.err ≠ .containerCodecError ∧ s.eavail.toNat < 2 ^ (s.dimBits.idxBits - 3) ∧ s.ereq.toNat < 2 ^ 32 ∧
  s.elsb.toNat ≤ 8

/-- The invariant of the machine. -/
structure Inv (s : State) : Prop where
  /-- the three memories -/
  memory : MemoryInv s
  /-- the five cursor registers -/
  cursor : CursorInv s
  /-- `STATUS` and the error-information registers -/
  errors : ErrorInv s

/-- An outcome that is a next state: the machine went on. -/
def Completes (o : Outcome) : Prop := ∃ t, o = .next t

end Sys2Proof.Machine
end

