-- ==== Sys2Proof/Certificates/Slice0/Obligations.lean ====
section
/-! DEFINITION. What is claimed of the model, for the provers. The vocabulary comes first: the tests of the operand
registers and the quantities in the spec's own numbers, the frames, and the tables of `60_exceptions.md`. -/

namespace Sys2Proof.Claims

open Sys2Proof.Machine

/-- `LsbOk` of R22. -/
abbrev LsbLegal (s : State) : Prop := 1 ≤ s.lsb.toNat ∧ s.lsb.toNat ≤ 8
/-- `WOk` of R22. -/
abbrev WLegal (s : State) : Prop := s.w.toNat < 2 ^ s.dimBits.val
/-- `WPos` of R22. -/
abbrev WPositive (s : State) : Prop := 1 ≤ s.w.toNat
/-- `HOk` of R22. -/
abbrev HLegal (s : State) : Prop := s.h.toNat < 2 ^ s.dimBits.val
/-- `LenOk` of R22. -/
abbrev LenLegal (s : State) : Prop := s.plen.toNat < 2 ^ 32
/-- `ArgOk` of R22. -/
abbrev ArgLegal (s : State) : Prop := s.arg.toNat < 2 ^ (2 * s.dimBits.val + 5)

/-- `Total` (R135). -/
abbrev totalBits (s : State) : Nat := s.w.toNat * s.h.toNat * 3 * s.lsb.toNat
/-- `4*W*H`, the extent of the grid in bytes (R54). -/
abbrev gridExtent (s : State) : Nat := 4 * s.w.toNat * s.h.toNat
/-- `32 + 8*PLEN`, the stream's length in bits (R72). -/
abbrev streamBits (s : State) : Nat := 32 + 8 * s.plen.toNat
/-- The byte address of the cursor's channel (R54, R121). -/
abbrev cursorAddr (s : State) : Nat := 4 * (s.cury.toNat * s.w.toNat + s.curx.toNat) + s.curch.index
/-- The bit of a byte at the position of stream index `i`, in a space (R73, R161). -/
abbrev bitAt (s : State) (sp : Space) (i : Nat) : Bool :=
  (memRead s sp ((curMap s.w.toNat s.lsb.toNat i).addr s.w.toNat)).getLsbD (i % s.lsb.toNat)
/-- The declared length: the first 32 bits of `SRC`, least significant first (R163). -/
abbrev headerValue (s : State) : Nat := ∑ i ∈ Finset.range 32, (bitAt s .src i).toNat * 2 ^ i

/-- The operand registers are as before. -/
abbrev SameOperands (s t : State) : Prop :=
  t.w = s.w ∧ t.h = s.h ∧ t.lsb = s.lsb ∧ t.plen = s.plen ∧ t.arg = s.arg
/-- The cursor registers are as before. -/
abbrev SameCursor (s t : State) : Prop :=
  t.idx = s.idx ∧ t.curx = s.curx ∧ t.cury = s.cury ∧ t.curch = s.curch ∧ t.cursh = s.cursh
/-- The error-information registers are as before. -/
abbrev SameErrorInfo (s t : State) : Prop := t.eavail = s.eavail ∧ t.ereq = s.ereq ∧ t.elsb = s.elsb
/-- The model's own fields are as before. -/
abbrev SameModelFields (s t : State) : Prop :=
  t.dimBits = s.dimBits ∧ t.epoch = s.epoch ∧ t.reply = s.reply ∧ t.pending = s.pending
/-- Every byte of a space reads as before. -/
def SameSpace (sp : Space) (s t : State) : Prop := ∀ a, memRead t sp a = memRead s sp a
/-- Every byte of every space reads as before. -/
def SameMemory (s t : State) : Prop := ∀ sp, SameSpace sp s t

/-- The table of R196: which operand tests each command makes. -/
def operandTests : Command → State → Prop
  | .curSeek, s => LsbLegal s ∧ WLegal s ∧ WPositive s ∧ ArgLegal s
  | .curAdv, s => LsbLegal s ∧ WLegal s ∧ WPositive s
  | .bitGet, s => LsbLegal s ∧ WLegal s ∧ WPositive s ∧ HLegal s
  | .bitPut _, s => LsbLegal s ∧ WLegal s ∧ WPositive s ∧ HLegal s
  | .gcopy, s => WLegal s ∧ HLegal s
  | .chkcap, s => LsbLegal s ∧ WLegal s ∧ HLegal s ∧ LenLegal s
  | .encode, s => LsbLegal s ∧ WLegal s ∧ HLegal s ∧ LenLegal s
  | .decode, s => LsbLegal s ∧ WLegal s ∧ HLegal s

/-- The table of R186: what each command can report. -/
def reportableKinds : Command → List ErrorKind
  | .curSeek => [.ok, .invalidParameter]
  | .curAdv => [.ok, .invalidParameter, .outOfGrid]
  | .bitGet => [.ok, .invalidParameter, .outOfGrid]
  | .bitPut _ => [.ok, .invalidParameter, .outOfGrid]
  | .gcopy => [.ok, .invalidParameter]
  | .chkcap => [.ok, .invalidParameter, .capacityExceeded]
  | .encode => [.ok, .invalidParameter, .capacityExceeded]
  | .decode => [.ok, .invalidParameter, .imageTooSmall, .invalidDeclaredLength]

/-- An instruction that runs the given command: its own row, or a write of its word to `CMD` (R83). -/
def Issues (i : Instr) (c : Command) : Prop :=
  i = c.toInstr ∨ ∃ v, i = .wr 0x0F v ∧ decodeCommand v = .ok c

/-- The next step runs the given instruction. -/
def StepRuns (s : State) (i : Instr) : Prop :=
  ∃ tw rest, s.pending = .word tw :: rest ∧ decodeTx tw = .ok i

/-- The next step runs the given command. -/
def StepIssues (s : State) (c : Command) : Prop := ∃ i, StepRuns s i ∧ Issues i c

/-- The next step applies reset. -/
def StepResets (s : State) : Prop := ∃ rest, s.pending = .reset :: rest

/-- The next step is a memory-port write to the given space. -/
def StepWritesPort (s : State) (sp : Space) : Prop :=
  ∃ id a v rest, s.pending = .mwr id a v :: rest ∧ Space.ofId id = some sp

/-- The sequence of R153: `ENCODE` by its parts. -/
def encodeParts (s : State) : List HostEvent :=
  [evCmd .gcopy, evWr 0x04 0, evCmd .curSeek] ++
    (List.range (streamBits s)).flatMap fun i =>
      [evCmd (.bitPut (Machine.streamBit s.plen.toNat (memRead s .pay) i)), evCmd .curAdv]

/-- The sequence of R169 up to the read of bit `i`: `DECODE` by its parts. -/
def decodeParts (i : Nat) : List HostEvent :=
  [evWr 0x04 0, evCmd .curSeek] ++
    (List.range i).flatMap (fun _ => [evCmd .bitGet, evRd 0x0A, evCmd .curAdv]) ++ [evCmd .bitGet, evRd 0x0A]

end Sys2Proof.Claims

open Sys2Proof Sys2Proof.Machine Sys2Proof.Claims

/-! ### Encoding -/

/-- R76 to R80: decoding the encoding of an instruction gives it back, for every operand value; the same through the
opcode table's numbering of its bits. -/
def Obligations.EncodedInstructionDecodesBack : Prop :=
  ∀ i : Instr, i.wf = true →
    decodeTx (encode i) = .ok i ∧
    decodeTableWord (encode i).toTable.1 (encode i).toTable.2 = some i

/-- R80, R82: a command word is legal exactly when it is the encoding of the command it decodes to. -/
def Obligations.LegalCommandWordIsItsEncoding : Prop :=
  ∀ (w : Word) (c : Command), decodeCommand w = .ok c ↔ w = encodeCommand c

/-- R80: a word `w` selects a row when `w AND mask = match`, with `b = w[8]` in `BIT.PUT`. -/
def Obligations.MaskAndMatchSelectTheCommand : Prop :=
  ∀ (w : Word) (c : Command),
    decodeCommand w = .ok c ↔ w &&& c.mask = c.pattern ∧ ∀ b, c = .bitPut b → w.getLsbD 8 = b

/-- R194, R81: exactly which command words are illegal, and that writing an illegal word to `CMD` changes `STATUS` alone,
in every state, so before any operand register is looked at. -/
def Obligations.IllegalCommandWords : Prop :=
  (∀ w : Word, (∃ e, decodeCommand w = .error e) ↔
    (w.toNat % 2 ^ 8 = 0 ∨ 9 ≤ w.toNat % 2 ^ 8 ∨ (∃ k, 9 ≤ k ∧ w.getLsbD k = true) ∨
      (w.getLsbD 8 = true ∧ w.toNat % 2 ^ 8 ≠ 4))) ∧
  (∀ (w : Word) (e : DecodeError) (s : State), decodeCommand w = .error e →
    exec (.wr 0x0F w) s = .next { s with err := .illegalCommand })

/-- R76: every 73-bit word is a register-port transaction with `kind` in bit 72, `rn` in 71:64 and `v` in 63:0. -/
def Obligations.PortWordFields : Prop :=
  ∀ w : BitVec 73,
    (w.getLsbD 72 = true → ∃ rn v, decodePort w = .wr rn v ∧
      rn.toNat = w.toNat / 2 ^ 64 % 2 ^ 8 ∧ v.toNat = w.toNat % 2 ^ 64) ∧
    (w.getLsbD 72 = false → ∃ rn, decodePort w = .rd rn ∧ rn.toNat = w.toNat / 2 ^ 64 % 2 ^ 8)

/-- Words written out from the tables of R76, R80 and from program P1 decode to what they stand for. -/
def Obligations.SpecWordsDecode : Prop :=
  decodeTableWord 64 0x001 = some .curSeek ∧ decodeTableWord 64 0x002 = some .curAdv ∧
  decodeTableWord 64 0x003 = some .bitGet ∧ decodeTableWord 64 0x004 = some (.bitPut false) ∧
  decodeTableWord 64 0x104 = some (.bitPut true) ∧ decodeTableWord 64 0x005 = some .gcopy ∧
  decodeTableWord 64 0x006 = some .chkcap ∧ decodeTableWord 64 0x007 = some .encode ∧
  decodeTableWord 64 0x008 = some .decode ∧ decodeTableWord 64 0 = none ∧
  decodeTableWord 80 0x100000000000000000A = some (.wr 0x00 10) ∧
  decodeTableWord 80 0x10F0000000000000007 = some (.wr 0x0F 7) ∧
  decodeTableWord 80 0x00B0000000000000000 = some (.rd 0x0B)

/-! ### Steps -/

/-- R8, R24: a step takes the host's first pending transaction and runs the instruction its word decodes to; the rest
stays pending. An illegal command word raises `IllegalCommand`. That the pending list is a field of State is the
model's choice (log entry 2). -/
def Obligations.StepRunsDecodedTransaction : Prop :=
  ∀ (s : State) (tw : TxWord) (rest : List HostEvent), s.pending = .word tw :: rest →
    (∀ i, decodeTx tw = .ok i → step s = exec i { s with pending := rest }) ∧
    (∀ e, decodeTx tw = .error e → step s = .next { s with pending := rest, err := .illegalCommand })

/-- The word placed by `withFetchWord` is the one the very next step runs, and the step leaves the rest of what was
pending in place (the model's interface, log entry 2). -/
def Obligations.FetchedWordRunsNext : Prop :=
  ∀ (s : State) (nbits w : Nat) (i : Instr), decodeTableWord nbits w = some i →
    step (s.withFetchWord nbits w) = exec i s

/-- R58: the memory port reads and writes one byte of one space and nothing else; an access outside the interface is
refused. The steps are the model's own events (log entries 4, 7). -/
def Obligations.MemoryPortMovesOneByte : Prop :=
  ∀ (s : State) (sp : Space) (a : Nat) (v : Byte) (rest : List HostEvent),
    (a < sp.size s.dimBits → s.pending = .mwr sp.id a v :: rest →
      ∃ t, step s = .next t ∧ memRead t sp a = v ∧
        (∀ sp' a', ¬(sp' = sp ∧ a' = a) → memRead t sp' a' = memRead s sp' a') ∧
        t = { s with pending := rest, src := t.src, dst := t.dst, pay := t.pay }) ∧
    (a < sp.size s.dimBits → s.pending = .mrd sp.id a :: rest →
      step s = .next { s with pending := rest, reply := .byte (memRead s sp a) }) ∧
    (sp.size s.dimBits ≤ a → s.pending = .mwr sp.id a v :: rest → step s = .refused .addressOutsideSpace) ∧
    (sp.size s.dimBits ≤ a → s.pending = .mrd sp.id a :: rest → step s = .refused .addressOutsideSpace) ∧
    (s.pending = .mwr 3 a v :: rest → step s = .refused .noSuchSpace) ∧
    (s.pending = .mrd 3 a :: rest → step s = .refused .noSuchSpace)

/-- R210, R34: after a reset every register reads as 0, whatever the state was, and the block waits. That reset keeps
`DIM_BITS` and what is pending, that the idle block steps to itself, and where a value read is kept, are the model's
choices (log entries 1, 3, 4, 12). -/
def Obligations.ResetClearsEveryRegister : Prop :=
  (∀ (s : State) (rest : List HostEvent), s.pending = .reset :: rest →
    ∃ t, step s = .next t ∧ t.dimBits = s.dimBits ∧ t.pending = rest ∧
      ∀ rn : RegNum, exec (.rd rn) t = .next { t with reply := .word 0 }) ∧
  (∀ s : State, s.pending = [] → step s = .next s)

/-- R178: every instruction runs to its end, in every state; there is no fault and no refusal. The
fields `dimBits`, `epoch` and `pending` are the model's own (log entries 1, 2, 6). -/
def Obligations.EveryInstructionCompletes : Prop :=
  ∀ (i : Instr) (s : State), ∃ t, exec i s = .next t ∧ t.dimBits = s.dimBits ∧ t.epoch = s.epoch ∧
    t.pending = s.pending

/-- R58, R178: a step is never refused while the host keeps to the interface. That pending is a list a step takes one
event from, that an empty list steps to itself, that memory-port accesses are events of it and that reset keeps the rest
are the model's choices (log entries 2, 3, 7, 12). -/
def Obligations.WellFormedEventsAlwaysStep : Prop :=
  ∀ s : State, (∀ e ∈ s.pending, e.wf s.dimBits = true) →
    ∃ t, step s = .next t ∧ (∀ e ∈ t.pending, e.wf t.dimBits = true) ∧ t.pending = s.pending.tail

/-! ### Registers and command issue -/

/-- R176, R23: a write of an operand register stores the value whatever it is, `W` and `LSB` zero the cursor,
read-only and unimplemented registers ignore it, `STATUS` never changes, and a write to `CMD` runs the command its
word selects. -/
def Obligations.RegisterWrite : Prop :=
  (∀ (rn : RegNum) (v : Word), decodePort (encodePort true rn v) = .wr rn v) ∧
  ∀ (s : State) (v : Word),
    exec (.wr 0x00 v) s =
      .next { s with w := v, idx := 0, curx := 0, cury := 0, curch := .red, cursh := 0 } ∧
    exec (.wr 0x01 v) s = .next { s with h := v } ∧
    exec (.wr 0x02 v) s =
      .next { s with lsb := v, idx := 0, curx := 0, cury := 0, curch := .red, cursh := 0 } ∧
    exec (.wr 0x03 v) s = .next { s with plen := v } ∧
    exec (.wr 0x04 v) s = .next { s with arg := v } ∧
    (∀ rn : RegNum, (0x05 ≤ rn.toNat ∧ rn.toNat ≤ 0x0E) ∨ 0x10 ≤ rn.toNat → exec (.wr rn v) s = .next s) ∧
    (∀ c, decodeCommand v = .ok c → exec (.wr 0x0F v) s = exec c.toInstr s) ∧
    (∀ e, decodeCommand v = .error e → exec (.wr 0x0F v) s = .next { s with err := .illegalCommand })

/-- R177, R27, R28: a register read returns the value stored, zero-extended; `CMD` and unimplemented numbers return
0; the read changes nothing of the block. Where the model keeps the value returned is its own choice (log entry 4). -/
def Obligations.RegisterRead : Prop :=
  ∀ s : State,
    (∀ rn : RegNum, ∃ v, exec (.rd rn) s = .next { s with reply := .word v }) ∧
    exec (.rd 0x00) s = .next { s with reply := .word s.w } ∧
    exec (.rd 0x01) s = .next { s with reply := .word s.h } ∧
    exec (.rd 0x02) s = .next { s with reply := .word s.lsb } ∧
    exec (.rd 0x03) s = .next { s with reply := .word s.plen } ∧
    exec (.rd 0x04) s = .next { s with reply := .word s.arg } ∧
    exec (.rd 0x05) s = .next { s with reply := .word s.idx } ∧
    exec (.rd 0x06) s = .next { s with reply := .word s.curx } ∧
    exec (.rd 0x07) s = .next { s with reply := .word s.cury } ∧
    exec (.rd 0x08) s = .next { s with reply := .word (match s.curch with | .red => 0 | .green => 1 | .blue => 2) } ∧
    exec (.rd 0x09) s = .next { s with reply := .word s.cursh } ∧
    exec (.rd 0x0A) s = .next { s with reply := .word (if s.bitv then 1 else 0) } ∧
    exec (.rd 0x0B) s = .next { s with reply := .word (match s.err with
      | .ok => 0 | .invalidParameter => 1 | .capacityExceeded => 2 | .imageTooSmall => 3
      | .invalidDeclaredLength => 4 | .containerCodecError => 5 | .outOfGrid => 6 | .illegalCommand => 7) } ∧
    exec (.rd 0x0C) s = .next { s with reply := .word s.eavail } ∧
    exec (.rd 0x0D) s = .next { s with reply := .word s.ereq } ∧
    exec (.rd 0x0E) s = .next { s with reply := .word s.elsb } ∧
    (∀ rn : RegNum, 0x0F ≤ rn.toNat → exec (.rd rn) s = .next { s with reply := .word 0 })

/-- R21: no write of an operand register is refused or truncated: a read returns the value written. Where the model
keeps the value returned is its own choice (log entry 4). -/
def Obligations.WrittenOperandReadsBack : Prop :=
  ∀ (s : State) (rn : RegNum) (v : Word), rn.toNat ≤ 4 →
    ∃ t, exec (.wr rn v) s = .next t ∧ exec (.rd rn) t = .next { t with reply := .word v }

/-- R28: register reads, register writes other than to `CMD` and memory-port accesses never change `STATUS`.
That memory-port accesses are host events is the model's choice (log entry 7). -/
def Obligations.OnlyCommandsChangeStatus : Prop :=
  (∀ (s t : State) (rn : RegNum) (v : Word), rn ≠ 0x0F → exec (.wr rn v) s = .next t → t.err = s.err) ∧
  (∀ (s t : State) (rn : RegNum), exec (.rd rn) s = .next t → t.err = s.err) ∧
  (∀ (s t : State) (id : BitVec 2) (a : Nat) (v : Byte), runEvent (.mwr id a v) s = .next t → t.err = s.err) ∧
  (∀ (s t : State) (id : BitVec 2) (a : Nat), runEvent (.mrd id a) s = .next t → t.err = s.err)

/-! ### The cursor -/

/-- R102, R101: `CUR.SEEK`, its errors and its result in the closed form's own words. -/
def Obligations.CurSeekPutsCursorAtClosedForm : Prop :=
  decodeCommand 0x0000000000000001 = .ok .curSeek ∧
  ∀ s : State,
    (¬(LsbLegal s ∧ WLegal s ∧ WPositive s ∧ ArgLegal s) →
      exec .curSeek s = .next { s with err := .invalidParameter }) ∧
    (LsbLegal s → WLegal s → WPositive s → ArgLegal s →
      ∃ t, exec .curSeek s = .next t ∧ t.err = .ok ∧ t.idx = s.arg ∧
        t.cursh.toNat = s.arg.toNat % s.lsb.toNat ∧
        t.curch.index = s.arg.toNat / s.lsb.toNat % 3 ∧
        t.curx.toNat = s.arg.toNat / (s.lsb.toNat * 3) % s.w.toNat ∧
        t.cury.toNat = s.arg.toNat / (s.lsb.toNat * 3) / s.w.toNat ∧
        SameOperands s t ∧ t.bitv = s.bitv ∧ SameErrorInfo s t ∧ SameModelFields s t ∧ SameMemory s t)

/-- R105, R103: `CUR.ADV`, its errors and its result carry by carry. -/
def Obligations.CurAdvCarriesShiftChannelColumnRow : Prop :=
  decodeCommand 0x0000000000000002 = .ok .curAdv ∧
  ∀ s : State,
    (¬(LsbLegal s ∧ WLegal s ∧ WPositive s) → exec .curAdv s = .next { s with err := .invalidParameter }) ∧
    (LsbLegal s → WLegal s → WPositive s → s.idx.toNat = 2 ^ (2 * s.dimBits.val + 5) - 1 →
      exec .curAdv s = .next { s with err := .outOfGrid }) ∧
    (LsbLegal s → WLegal s → WPositive s → s.idx.toNat ≠ 2 ^ (2 * s.dimBits.val + 5) - 1 →
      ∃ t, exec .curAdv s = .next t ∧ t.err = .ok ∧ t.idx = s.idx + 1 ∧
        (if s.cursh.toNat + 1 < s.lsb.toNat then
          t.cursh = s.cursh + 1 ∧ t.curch = s.curch ∧ t.curx = s.curx ∧ t.cury = s.cury
        else
          t.cursh = 0 ∧
          match s.curch with
          | .red => t.curch = .green ∧ t.curx = s.curx ∧ t.cury = s.cury
          | .green => t.curch = .blue ∧ t.curx = s.curx ∧ t.cury = s.cury
          | .blue => t.curch = .red ∧
            if s.curx.toNat + 1 < s.w.toNat then t.curx = s.curx + 1 ∧ t.cury = s.cury
            else t.curx = 0 ∧ t.cury = s.cury + 1) ∧
        SameOperands s t ∧ t.bitv = s.bitv ∧ SameErrorInfo s t ∧ SameModelFields s t ∧ SameMemory s t)

/-- R105, R26: from a state whose cursor is `CurMap(W, LSB, IDX)`, `CUR.ADV` gives `CurMap(W, LSB, IDX + 1)`. -/
def Obligations.CurAdvTracksClosedForm : Prop :=
  ∀ s : State, CursorInv s → LsbLegal s → WLegal s → WPositive s →
    s.idx.toNat + 1 < 2 ^ (2 * s.dimBits.val + 5) →
    ∃ t, exec .curAdv s = .next t ∧ t.err = .ok ∧ t.idx.toNat = s.idx.toNat + 1 ∧
      t.pos = curMap s.w.toNat s.lsb.toNat (s.idx.toNat + 1)

/-- R106: `IDX` never exceeds `2^IDX_BITS - 1`, and no index inside a legal grid meets the bound. -/
def Obligations.IndexStaysBelowItsBound : Prop :=
  (∀ (s t : State) (i : Instr), s.idx.toNat ≤ 2 ^ (2 * s.dimBits.val + 5) - 1 → exec i s = .next t →
    t.idx.toNat ≤ 2 ^ (2 * s.dimBits.val + 5) - 1) ∧
  (∀ s : State, LsbLegal s → WLegal s → WPositive s → 2 ^ (2 * s.dimBits.val + 5) ≤ s.arg.toNat →
    exec .curSeek s = .next { s with err := .invalidParameter }) ∧
  (∀ s : State, LsbLegal s → WLegal s → WPositive s → s.idx.toNat = 2 ^ (2 * s.dimBits.val + 5) - 1 →
    exec .curAdv s = .next { s with err := .outOfGrid }) ∧
  (∀ s : State, LsbLegal s → WLegal s → HLegal s → totalBits s < 2 ^ (2 * s.dimBits.val + 5))

/-- R104: stepping agrees with the closed form. -/
def Obligations.AdvanceAgreesWithClosedForm : Prop :=
  ∀ w l i : Nat, 1 ≤ w → 1 ≤ l → l ≤ 8 →
    curAdv w l (curMap w l i) = curMap w l (i + 1) ∧
    curMap w l 0 = ⟨0, 0, .red, 0⟩ ∧
    (curAdv w l)^[i] ⟨0, 0, .red, 0⟩ = curMap w l i

/-- R107: `CurMap` and `CurIdx` are inverse to each other on the tuples in range, so every bit position below the
depth of every R, G, B byte is named by exactly one index. -/
def Obligations.CurMapAndCurIdxAreInverse : Prop :=
  ∀ w l : Nat, 1 ≤ w → 1 ≤ l → l ≤ 8 →
    (∀ i, curIdx w l (curMap w l i) = i ∧ (curMap w l i).x < w ∧ (curMap w l i).ch.index ≤ 2 ∧
      (curMap w l i).sh < l) ∧
    (∀ p : Pos, p.x < w → p.sh < l →
      curIdx w l p = ((p.y * w + p.x) * 3 + p.ch.index) * l + p.sh ∧ curMap w l (curIdx w l p) = p ∧
      ∀ i, curMap w l i = p → i = curIdx w l p)

/-- R73, R107, R109: different indices name different bits of memory, and none names a bit of an alpha byte or a bit
at or above the depth. -/
def Obligations.IndicesNameDistinctStorageBits : Prop :=
  ∀ w l i j : Nat, 1 ≤ w → 1 ≤ l → l ≤ 8 →
    ((curMap w l i).addr w = (curMap w l j).addr w → (curMap w l i).sh = (curMap w l j).sh → i = j) ∧
    (curMap w l i).addr w % 4 ≠ 3 ∧ (curMap w l i).sh < l ∧
    (curMap w l i).addr w = 4 * (i / (3 * l)) + i / l % 3

/-- R108: the row of an index is below `h` exactly when the index is below `w*h*3*l`. -/
def Obligations.RowBelowHeightIffIndexBelowTotal : Prop :=
  ∀ w h l i : Nat, 1 ≤ w → 1 ≤ l → l ≤ 8 → ((curMap w l i).y < h ↔ i < w * h * 3 * l)

/-- R75 (a) and (b): the layouts at depth 1 and at depth 8, for every width. -/
def Obligations.LayoutsAtDepthOneAndEight : Prop :=
  ∀ w : Nat, 1 ≤ w →
    (∀ i, (curMap w 1 i).addr w = 4 * (i / 3) + i % 3 ∧ (curMap w 1 i).sh = 0) ∧
    (∀ m j, j < 8 → (curMap w 8 (8 * m + j)).addr w = 4 * (m / 3) + m % 3 ∧ (curMap w 8 (8 * m + j)).sh = j)

/-! ### Single bits and the grid copy -/

/-- R10: `SetBit` makes one bit `b`, keeps the others, and is the formula of R10. -/
def Obligations.SetBitIsTheFormula : Prop :=
  ∀ (v : Byte) (k : Nat) (b : Bool), k ≤ 7 →
    (∀ j, (setBit v k b).getLsbD j = if j = k then b else v.getLsbD j) ∧
    (setBit v k b).toNat = v.toNat - (v.getLsbD k).toNat * 2 ^ k + b.toNat * 2 ^ k

/-- R121: `BIT.GET`. -/
def Obligations.BitGetReadsSourceBitAtCursor : Prop :=
  decodeCommand 0x0000000000000003 = .ok .bitGet ∧
  ∀ s : State,
    (¬(LsbLegal s ∧ WLegal s ∧ WPositive s ∧ HLegal s) →
      exec .bitGet s = .next { s with err := .invalidParameter }) ∧
    (LsbLegal s → WLegal s → WPositive s → HLegal s → s.h.toNat ≤ s.cury.toNat →
      exec .bitGet s = .next { s with err := .outOfGrid }) ∧
    (LsbLegal s → WLegal s → WPositive s → HLegal s → s.cury.toNat < s.h.toNat →
      exec .bitGet s = .next { s with
        bitv := (memRead s .src (cursorAddr s)).getLsbD s.cursh.toNat, err := .ok })

/-- R122: `BIT.PUT b`. One bit of one byte of `DST` can change and nothing else does. -/
def Obligations.BitPutWritesOneBitAtCursor : Prop :=
  decodeCommand 0x0000000000000004 = .ok (.bitPut false) ∧
  decodeCommand 0x0000000000000104 = .ok (.bitPut true) ∧
  ∀ (s : State) (b : Bool),
    (¬(LsbLegal s ∧ WLegal s ∧ WPositive s ∧ HLegal s) →
      exec (.bitPut b) s = .next { s with err := .invalidParameter }) ∧
    (LsbLegal s → WLegal s → WPositive s → HLegal s → s.h.toNat ≤ s.cury.toNat →
      exec (.bitPut b) s = .next { s with err := .outOfGrid }) ∧
    (LsbLegal s → WLegal s → WPositive s → HLegal s → s.cury.toNat < s.h.toNat →
      ∃ t, exec (.bitPut b) s = .next t ∧ t = { s with err := .ok, dst := t.dst } ∧
        SameSpace .src s t ∧ SameSpace .pay s t ∧
        (∀ a, a ≠ cursorAddr s → memRead t .dst a = memRead s .dst a) ∧
        ∀ k < 8, (memRead t .dst (cursorAddr s)).getLsbD k =
          if k = s.cursh.toNat then b else (memRead s .dst (cursorAddr s)).getLsbD k)

/-- R125: the frame law of the bit write, bit by bit; alpha bytes and bits at or above the depth never change. -/
def Obligations.BitPutKeepsAlphaAndHighBits : Prop :=
  ∀ (s t : State) (b : Bool), CursorInv s → exec (.bitPut b) s = .next t → t.err = .ok →
    (∀ a k, k < 8 → (memRead t .dst a).getLsbD k =
      if a = cursorAddr s ∧ k = s.cursh.toNat then b else (memRead s .dst a).getLsbD k) ∧
    (∀ a k, a % 4 = 3 ∨ s.lsb.toNat ≤ k → (memRead t .dst a).getLsbD k = (memRead s .dst a).getLsbD k)

/-- R123: past the last row a bit access reports `OutOfGrid` and changes nothing else; the row is the only way to be
outside, and `ENCODE` and `DECODE` never meet the case. -/
def Obligations.BitAccessPastLastRow : Prop :=
  (∀ (s : State) (b : Bool), LsbLegal s → WLegal s → WPositive s → HLegal s → s.h.toNat ≤ s.cury.toNat →
    exec .bitGet s = .next { s with err := .outOfGrid } ∧
    exec (.bitPut b) s = .next { s with err := .outOfGrid }) ∧
  (∀ s : State, CursorInv s → LsbLegal s → WLegal s → WPositive s →
    s.curx.toNat < s.w.toNat ∧ s.curch.index ≤ 2 ∧ s.cursh.toNat < s.lsb.toNat) ∧
  (∀ s t : State, exec .encode s = .next t ∨ exec .decode s = .next t → t.err ≠ .outOfGrid)

/-- R124: `GCOPY`. -/
def Obligations.GcopyCopiesTheGrid : Prop :=
  decodeCommand 0x0000000000000005 = .ok .gcopy ∧
  ∀ s : State,
    (¬(WLegal s ∧ HLegal s) → exec .gcopy s = .next { s with err := .invalidParameter }) ∧
    (WLegal s → HLegal s →
      ∃ t, exec .gcopy s = .next t ∧ t = { s with err := .ok, dst := t.dst } ∧
        SameSpace .src s t ∧ SameSpace .pay s t ∧
        ∀ a, memRead t .dst a = if a < gridExtent s then memRead s .src a else memRead s .dst a)

/-! ### Capacity -/

/-- R137, R136: `CHKCAP`. -/
def Obligations.ChkcapDecidesFit : Prop :=
  decodeCommand 0x0000000000000006 = .ok .chkcap ∧
  ∀ s : State,
    (¬(LsbLegal s ∧ WLegal s ∧ HLegal s ∧ LenLegal s) →
      exec .chkcap s = .next { s with err := .invalidParameter }) ∧
    (LsbLegal s → WLegal s → HLegal s → LenLegal s → totalBits s < 32 + 8 * s.plen.toNat →
      ∃ t, exec .chkcap s = .next t ∧
        t = { s with err := .capacityExceeded, eavail := t.eavail, ereq := s.plen, elsb := s.lsb } ∧
        t.eavail.toNat = (totalBits s - 32) / 8) ∧
    (LsbLegal s → WLegal s → HLegal s → LenLegal s → 32 + 8 * s.plen.toNat ≤ totalBits s →
      exec .chkcap s = .next { s with err := .ok })

/-- R138: the boundary law. -/
def Obligations.ChkcapBoundary : Prop :=
  ∀ s t : State, LsbLegal s → WLegal s → HLegal s → LenLegal s → exec .chkcap s = .next t →
    (32 ≤ totalBits s → (t.err = .ok ↔ s.plen.toNat ≤ (totalBits s - 32) / 8)) ∧
    (totalBits s < 32 → t.err = .capacityExceeded) ∧
    (32 ≤ totalBits s → s.plen.toNat * 8 = totalBits s - 32 → t.err = .ok) ∧
    (32 ≤ totalBits s → s.plen.toNat * 8 = totalBits s - 32 + 8 → t.err = .capacityExceeded)

/-- R139: `CHKCAP` is a function of `(W, H, LSB, PLEN)` alone, running it twice gives the same answer, and `ENCODE`
ends with the outcome of the same test. -/
def Obligations.ChkcapIsPure : Prop :=
  (∀ s s' t t' : State, s'.dimBits = s.dimBits → s'.w = s.w → s'.h = s.h → s'.lsb = s.lsb → s'.plen = s.plen →
    exec .chkcap s = .next t → exec .chkcap s' = .next t' →
    t'.err = t.err ∧
      (t.err = .capacityExceeded → t'.eavail = t.eavail ∧ t'.ereq = t.ereq ∧ t'.elsb = t.elsb)) ∧
  (∀ s t : State, exec .chkcap s = .next t → exec .chkcap t = .next t) ∧
  (∀ s t : State, exec .chkcap s = .next t →
    t = { s with err := t.err, eavail := t.eavail, ereq := t.ereq, elsb := t.elsb } ∧
    (t.err ≠ .capacityExceeded → SameErrorInfo s t)) ∧
  (∀ s t u : State, exec .chkcap s = .next t → exec .encode s = .next u → u.err = t.err)

/-! ### The encoder -/

/-- R146: `ENCODE` begins with exactly the test of `CHKCAP`, before any memory access: what it does when the test fails,
in full, and that it fails in no other case. -/
def Obligations.EncodeFailsExactlyAsChkcap : Prop :=
  (∀ s : State,
    (¬(LsbLegal s ∧ WLegal s ∧ HLegal s ∧ LenLegal s) →
      exec .encode s = .next { s with err := .invalidParameter }) ∧
    (LsbLegal s → WLegal s → HLegal s → LenLegal s → totalBits s < 32 + 8 * s.plen.toNat →
      ∃ t, exec .encode s = .next t ∧
        t = { s with err := .capacityExceeded, eavail := t.eavail, ereq := s.plen, elsb := s.lsb } ∧
        t.eavail.toNat = (totalBits s - 32) / 8)) ∧
  (∀ s t : State, exec .chkcap s = .next t →
    (t.err ≠ .ok → exec .encode s = .next t) ∧
    (t.err = .ok → ∃ u, exec .encode s = .next u ∧ u.err = .ok)) ∧
  (∀ s t : State, exec .encode s = .next t → t.err ≠ .imageTooSmall)

/-- R148, R147: `ENCODE` completes on every payload that fits, and the complete description of `DST` after it: the
stream at its positions, the carrier everywhere else, nothing above the grid's extent. -/
def Obligations.EncodeWritesStreamAndNothingElse : Prop :=
  decodeCommand 0x0000000000000007 = .ok .encode ∧
  ∀ s : State, LsbLegal s → WLegal s → HLegal s → LenLegal s → streamBits s ≤ totalBits s →
    ∃ t, exec .encode s = .next t ∧ t = { s with err := .ok, dst := t.dst } ∧
      SameSpace .src s t ∧ SameSpace .pay s t ∧
      (∀ a, gridExtent s ≤ a → memRead t .dst a = memRead s .dst a) ∧
      ∀ p < s.w.toNat * s.h.toNat,
        memRead t .dst (4 * p + 3) = memRead s .src (4 * p + 3) ∧
        ∀ c < 3, ∀ k < 8,
          (memRead t .dst (4 * p + c)).getLsbD k =
            if k < s.lsb.toNat ∧ (3 * p + c) * s.lsb.toNat + k < streamBits s then
              Machine.streamBit s.plen.toNat (memRead s .pay) ((3 * p + c) * s.lsb.toNat + k)
            else (memRead s .src (4 * p + c)).getLsbD k

/-- R149: the source grid and the payload are not modified, on success and on failure. -/
def Obligations.EncodeKeepsItsInputs : Prop :=
  ∀ s t : State, exec .encode s = .next t →
    SameSpace .src s t ∧ SameSpace .pay s t ∧ SameOperands s t ∧ SameCursor s t ∧ t.bitv = s.bitv ∧
    SameModelFields s t

/-- R150: `ENCODE` is a function of its operands, the grid and the payload; nothing else influences the result. -/
def Obligations.EncodeIsDeterministic : Prop :=
  ∀ s s' t t' : State, s'.dimBits = s.dimBits → s'.w = s.w → s'.h = s.h → s'.lsb = s.lsb → s'.plen = s.plen →
    (∀ a < gridExtent s, memRead s' .src a = memRead s .src a) →
    (∀ k < s.plen.toNat, memRead s' .pay k = memRead s .pay k) →
    exec .encode s = .next t → exec .encode s' = .next t' →
    t'.err = t.err ∧ (t.err = .ok → ∀ a < gridExtent s, memRead t' .dst a = memRead t .dst a) ∧
    (t.err = .capacityExceeded → t'.eavail = t.eavail ∧ t'.ereq = t.ereq ∧ t'.elsb = t.elsb)

/-- R153: `ENCODE` equals its parts: `GCOPY`, `WR ARG, 0`, `CUR.SEEK`, then `BIT.PUT` and `CUR.ADV` for every stream
bit leave the same `DST`. The sequence moves the cursor to index `32 + 8*PLEN`, which `ENCODE` does not. -/
def Obligations.EncodeEqualsItsParts : Prop :=
  ∀ s t : State, exec .encode s = .next t → t.err = .ok →
    ∃ u, runEvents s (encodeParts s) = .next u ∧ SameSpace .dst t u ∧ u.idx.toNat = streamBits s ∧ u.err = .ok ∧ SameCursor s t

/-- R152: the round trip. Whatever else differs, a state that holds the encoded grid in `SRC` under the same geometry
decodes to the payload that was encoded. -/
def Obligations.DecodeInvertsEncode : Prop :=
  ∀ s t u : State, exec .encode s = .next t → t.err = .ok →
    u.dimBits = s.dimBits → u.w = s.w → u.h = s.h → u.lsb = s.lsb →
    (∀ a < gridExtent s, memRead u .src a = memRead t .dst a) →
    ∃ v, exec .decode u = .next v ∧ v.err = .ok ∧ v.plen = s.plen ∧
      ∀ k < s.plen.toNat, memRead v .pay k = memRead s .pay k

/-- R84, R220: `DST2SRC` through the memory port moves the output grid to `SRC` and changes nothing else but the data
last returned, which the model keeps in a field of its own (log entry 4); that memory-port accesses are host events is
its choice too (log entry 7). -/
def Obligations.Dst2SrcMovesTheGrid : Prop :=
  ∀ s : State, WLegal s → HLegal s →
    ∃ t, runEvents s (dst2src s (gridExtent s)) = .next t ∧
      (∀ a, memRead t .src a = if a < gridExtent s then memRead s .dst a else memRead s .src a) ∧
      t = { s with src := t.src, reply := t.reply }

/-! ### The decoder -/

/-- R162: `DECODE` on a grid whose declared length fits: the length and the bytes it reads, and that it writes nothing
else. -/
def Obligations.DecodeReadsLengthAndPayload : Prop :=
  decodeCommand 0x0000000000000008 = .ok .decode ∧
  ∀ s : State, LsbLegal s → WLegal s → HLegal s → 32 ≤ totalBits s → headerValue s * 8 + 32 ≤ totalBits s →
    ∃ t, exec .decode s = .next t ∧ t = { s with err := .ok, plen := t.plen, pay := t.pay } ∧
      t.plen.toNat = headerValue s ∧ SameSpace .src s t ∧ SameSpace .dst s t ∧
      ∀ k, memRead t .pay k =
        if k < headerValue s then
          BitVec.ofNat 8 (∑ j ∈ Finset.range 8, (bitAt s .src (32 + 8 * k + j)).toNat * 2 ^ j)
        else memRead s .pay k

/-- R162, R164, R190: the errors of `DECODE` in their order. -/
def Obligations.DecodeErrors : Prop :=
  ∀ s : State,
    (¬(LsbLegal s ∧ WLegal s ∧ HLegal s) → exec .decode s = .next { s with err := .invalidParameter }) ∧
    (LsbLegal s → WLegal s → HLegal s → totalBits s < 32 →
      exec .decode s = .next { s with err := .imageTooSmall }) ∧
    (LsbLegal s → WLegal s → HLegal s → 32 ≤ totalBits s → totalBits s < headerValue s * 8 + 32 →
      ∃ t, exec .decode s = .next t ∧
        t = { s with err := .invalidDeclaredLength, eavail := t.eavail, ereq := t.ereq, elsb := s.lsb } ∧
        t.eavail.toNat = (totalBits s - 32) / 8 ∧ t.ereq.toNat = headerValue s)

/-- R165: no partial result: a `DECODE` that ends in an error has changed neither `PAY` nor `PLEN`, one that succeeds has
written all the bytes it declares. -/
def Obligations.DecodeHasNoPartialResult : Prop :=
  ∀ s t : State, exec .decode s = .next t →
    (t.err ≠ .ok → SameMemory s t ∧ SameOperands s t) ∧
    (t.err = .ok → t.plen.toNat = headerValue s ∧ ∀ k < headerValue s,
      memRead t .pay k = BitVec.ofNat 8 (∑ j ∈ Finset.range 8, (bitAt s .src (32 + 8 * k + j)).toNat * 2 ^ j))

/-- R168: `DECODE` is a function of `(W, H, LSB, SRC)`. -/
def Obligations.DecodeIsDeterministic : Prop :=
  ∀ s s' t t' : State, s'.dimBits = s.dimBits → s'.w = s.w → s'.h = s.h → s'.lsb = s.lsb →
    (∀ a < gridExtent s, memRead s' .src a = memRead s .src a) →
    exec .decode s = .next t → exec .decode s' = .next t' →
    t'.err = t.err ∧
    (t.err = .ok → t'.plen = t.plen ∧ ∀ k < t.plen.toNat, memRead t' .pay k = memRead t .pay k) ∧
    (t.err = .invalidDeclaredLength → t'.eavail = t.eavail ∧ t'.ereq = t.ereq ∧ t'.elsb = t.elsb)

/-- R223: the height enters only the capacity tests. -/
def Obligations.HeightOnlyBoundsDecode : Prop :=
  ∀ (s t t' : State) (h' : Word), exec .decode s = .next t → exec .decode { s with h := h' } = .next t' →
    t.err = .ok → t'.err = .ok →
    t'.plen = t.plen ∧ ∀ k < t.plen.toNat, memRead t' .pay k = memRead t .pay k

/-- R74, R71, R72: the least-significant-first assembly inverts the least-significant-first emission. For `k ≥ n`, past
the end of the stream, where R72 has no case, it is about the model's choice (log entry 15). -/
def Obligations.StreamReadsBack : Prop :=
  ∀ (n : Nat) (pay : Nat → Byte), n < 2 ^ 32 →
    hdrVal (Machine.streamBit n pay) = n ∧ ∀ k, payloadByte (Machine.streamBit n pay) k = pay k

/-- R169: the bits `DECODE` reads are those the sequence `WR ARG, 0`, `CUR.SEEK`, then `BIT.GET`, `RD BITV`, `CUR.ADV`
returns, up to the read of each bit; the `CUR.ADV` after the last bit is not in the list. Where the model keeps the
value an `RD` returns is its own choice (log entry 4). -/
def Obligations.DecodeEqualsItsParts : Prop :=
  ∀ s t : State, exec .decode s = .next t → t.err = .ok →
    ∀ i < 32 + 8 * t.plen.toNat,
      ∃ u, runEvents s (decodeParts i) = .next u ∧ u.err = .ok ∧
        u.reply = .word (if bitAt s .src i then 1 else 0)

/-! ### Errors -/

/-- R196, R188: a command reports `InvalidParameter` exactly when one of the tests the table gives it fails. -/
def Obligations.OperandTestsOfEachCommand : Prop :=
  ∀ (c : Command) (s : State), ∃ t, exec c.toInstr s = .next t ∧
    (t.err = .invalidParameter ↔ ¬operandTests c s)

/-- R187, R197: a command that ends in an error has changed `STATUS` and, for codes 2 and 4, the error-information
registers, and nothing else. -/
def Obligations.ErrorsLeaveNoPartialEffect : Prop :=
  ∀ (c : Command) (s t : State), exec c.toInstr s = .next t → t.err ≠ .ok →
    t = { s with err := t.err, eavail := t.eavail, ereq := t.ereq, elsb := t.elsb } ∧
    (t.err ≠ .capacityExceeded → t.err ≠ .invalidDeclaredLength → SameErrorInfo s t)

/-- R186, R192: the kinds each command can report; the block never reports code 5. -/
def Obligations.KindsEachCommandReports : Prop :=
  (∀ (c : Command) (s t : State), exec c.toInstr s = .next t → t.err ∈ reportableKinds c) ∧
  (∀ (i : Instr) (s t : State), exec i s = .next t → s.err ≠ .containerCodecError →
    t.err ≠ .containerCodecError)

/-- R29: the error-information registers are written together and only with codes 2 and 4, with the values of the
table; the host cannot write them. -/
def Obligations.ErrorInfoWrittenOnlyWithItsCodes : Prop :=
  (∀ (c : Command) (s t : State), exec c.toInstr s = .next t →
    (t.err = .capacityExceeded →
      t.eavail.toNat = (totalBits s - 32) / 8 ∧ t.ereq = s.plen ∧ t.elsb = s.lsb) ∧
    (t.err = .invalidDeclaredLength →
      32 ≤ totalBits s ∧ t.eavail.toNat = (totalBits s - 32) / 8 ∧ t.ereq.toNat = headerValue s ∧
        t.elsb = s.lsb) ∧
    (t.err ≠ .capacityExceeded → t.err ≠ .invalidDeclaredLength → SameErrorInfo s t)) ∧
  (∀ (s : State) (v : Word), exec (.wr 0x0C v) s = .next s ∧ exec (.wr 0x0D v) s = .next s ∧
    exec (.wr 0x0E v) s = .next s)

/-! ### The whole machine

These are statements about a step. That a step takes the first event of a pending list, that an empty list steps to
itself, that memory-port accesses are events and what reset keeps are the model's choices (log entries 2, 3, 7, 12). -/

/-- R25: only `CUR.SEEK`, `CUR.ADV`, reset and a write to `W` or `LSB` change the cursor registers. -/
def Obligations.CursorMovesOnlyByItsCommands : Prop :=
  ∀ s t : State, step s = .next t → ¬SameCursor s t →
    StepIssues s .curSeek ∨ StepIssues s .curAdv ∨ StepResets s ∨
    (∃ v, StepRuns s (.wr 0x00 v)) ∨ ∃ v, StepRuns s (.wr 0x02 v)

/-- R27: `BITV` is written by a successful `BIT.GET` and by reset only, and no other command depends on it. -/
def Obligations.BitvBelongsToBitGet : Prop :=
  (∀ s t : State, step s = .next t → t.bitv ≠ s.bitv → StepIssues s .bitGet ∧ t.err = .ok ∨ StepResets s) ∧
  (∀ (c : Command) (s t : State) (b : Bool), c ≠ .bitGet → exec c.toInstr s = .next t →
    exec c.toInstr { s with bitv := b } = .next { t with bitv := b })

/-- R32: the block never writes `SRC`; it writes `DST` in `BIT.PUT`, `GCOPY` and `ENCODE` only, and `PAY` in `DECODE`
only; every other write is the host's memory port, or reset. -/
def Obligations.WhoWritesEachSpace : Prop :=
  ∀ s t : State, step s = .next t →
    (¬SameSpace .src s t → StepWritesPort s .src ∨ StepResets s) ∧
    (¬SameSpace .dst s t → StepWritesPort s .dst ∨ StepResets s ∨ (∃ b, StepIssues s (.bitPut b)) ∨
      StepIssues s .gcopy ∨ StepIssues s .encode) ∧
    (¬SameSpace .pay s t → StepWritesPort s .pay ∨ StepResets s ∨ StepIssues s .decode)

/-- R26, R31, R50, R106, R192: the invariant of the machine is kept by every step, whatever the host does next: the
cursor is `CurMap` of its index over a legal geometry, the memories stay in canonical form inside their sizes, and
`STATUS` and the error-information registers keep their ranges. -/
def Obligations.StepKeepsInvariant : Prop :=
  ∀ s t : State, Inv s → step s = .next t → Inv t

/-- R34: the invariant holds after reset. -/
def Obligations.ResetMeetsInvariant : Prop := Inv State.reset
end

