-- ==== Sys2Proof/Laws/Encoding.lean ====
section
/-! SUPPORT. The laws of the encoder's fields: what `encodePort` puts where (`30_encoding.md` R76), and that the
table's numbering gives a transaction word back. -/

namespace Sys2Proof

section
variable (k : Bool) (rn : RegNum) (v : Word)

/-- A register-port word as a number. -/
theorem encodePort_toNat : (encodePort k rn v).toNat = k.toNat * 2 ^ 72 + rn.toNat * 2 ^ 64 + v.toNat := by
  have := rn.isLt; have := v.isLt
  unfold encodePort; rw [BitVec.toNat_ofNat]
  cases k <;> simp <;> omega

/-- Bit 72 is `kind`. -/
@[simp] theorem portKind_encodePort : portKind (encodePort k rn v) = k := by
  have := rn.isLt; have := v.isLt
  unfold portKind
  rw [BitVec.getLsbD, Nat.testBit_eq_decide_div_mod_eq, encodePort_toNat]
  cases k <;> simp <;> omega

/-- Bits 71:64 are `rn`. -/
@[simp] theorem portReg_encodePort : portReg (encodePort k rn v) = rn := by
  have := rn.isLt; have := v.isLt
  apply BitVec.eq_of_toNat_eq
  unfold portReg; rw [BitVec.extractLsb'_toNat, encodePort_toNat, Nat.shiftRight_eq_div_pow]
  cases k <;> simp <;> omega

/-- Bits 63:0 are `v`. -/
@[simp] theorem portVal_encodePort : portVal (encodePort k rn v) = v := by
  have := rn.isLt; have := v.isLt
  apply BitVec.eq_of_toNat_eq
  unfold portVal; rw [BitVec.extractLsb'_toNat, encodePort_toNat, Nat.shiftRight_eq_div_pow]
  cases k <;> simp <;> omega

/-- The table's numbering loses no bit of a transaction word. -/
@[simp] theorem ofTable_toTable (t : TxWord) : TxWord.ofTable t.toTable.1 t.toTable.2 = some t := by
  cases t with
  | cmd w => simp [TxWord.toTable, TxWord.ofTable, w.isLt]
  | port w => simp [TxWord.toTable, TxWord.ofTable, w.isLt]

end

end Sys2Proof
end

