-- ==== Sys2Proof/Laws/State.lean ====
section
/-! SUPPORT. The small lemmas of State: what each named update leaves in each field, so that no later proof unfolds a
record update; and the shape of the three loops, which change one memory only. -/

namespace Sys2Proof.Machine

section
variable (s : State) (sp : Space) (m : Memory) (a n : Nat) (v : Byte) (i v64 : Word) (p : Pos) (k : ErrorKind) (b : Bool)
  (e : Option ErrorInfo)

/-! ### setCursor -/
@[simp] theorem setCursor_w : (s.setCursor i p).w = s.w := rfl
@[simp] theorem setCursor_h : (s.setCursor i p).h = s.h := rfl
@[simp] theorem setCursor_lsb : (s.setCursor i p).lsb = s.lsb := rfl
@[simp] theorem setCursor_plen : (s.setCursor i p).plen = s.plen := rfl
@[simp] theorem setCursor_arg : (s.setCursor i p).arg = s.arg := rfl
@[simp] theorem setCursor_idx : (s.setCursor i p).idx = i := rfl
@[simp] theorem setCursor_curx : (s.setCursor i p).curx = BitVec.ofNat 64 p.x := rfl
@[simp] theorem setCursor_cury : (s.setCursor i p).cury = BitVec.ofNat 64 p.y := rfl
@[simp] theorem setCursor_curch : (s.setCursor i p).curch = p.ch := rfl
@[simp] theorem setCursor_cursh : (s.setCursor i p).cursh = BitVec.ofNat 64 p.sh := rfl
@[simp] theorem setCursor_bitv : (s.setCursor i p).bitv = s.bitv := rfl
@[simp] theorem setCursor_err : (s.setCursor i p).err = s.err := rfl
@[simp] theorem setCursor_eavail : (s.setCursor i p).eavail = s.eavail := rfl
@[simp] theorem setCursor_ereq : (s.setCursor i p).ereq = s.ereq := rfl
@[simp] theorem setCursor_elsb : (s.setCursor i p).elsb = s.elsb := rfl
@[simp] theorem setCursor_src : (s.setCursor i p).src = s.src := rfl
@[simp] theorem setCursor_dst : (s.setCursor i p).dst = s.dst := rfl
@[simp] theorem setCursor_pay : (s.setCursor i p).pay = s.pay := rfl
@[simp] theorem setCursor_dimBits : (s.setCursor i p).dimBits = s.dimBits := rfl
@[simp] theorem setCursor_epoch : (s.setCursor i p).epoch = s.epoch := rfl
@[simp] theorem setCursor_reply : (s.setCursor i p).reply = s.reply := rfl
@[simp] theorem setCursor_pending : (s.setCursor i p).pending = s.pending := rfl
/-! ### clearCursor -/
@[simp] theorem clearCursor_w : (s.clearCursor).w = s.w := rfl
@[simp] theorem clearCursor_h : (s.clearCursor).h = s.h := rfl
@[simp] theorem clearCursor_lsb : (s.clearCursor).lsb = s.lsb := rfl
@[simp] theorem clearCursor_plen : (s.clearCursor).plen = s.plen := rfl
@[simp] theorem clearCursor_arg : (s.clearCursor).arg = s.arg := rfl
@[simp] theorem clearCursor_idx : (s.clearCursor).idx = 0 := rfl
@[simp] theorem clearCursor_curx : (s.clearCursor).curx = 0 := rfl
@[simp] theorem clearCursor_cury : (s.clearCursor).cury = 0 := rfl
@[simp] theorem clearCursor_curch : (s.clearCursor).curch = .red := rfl
@[simp] theorem clearCursor_cursh : (s.clearCursor).cursh = 0 := rfl
@[simp] theorem clearCursor_bitv : (s.clearCursor).bitv = s.bitv := rfl
@[simp] theorem clearCursor_err : (s.clearCursor).err = s.err := rfl
@[simp] theorem clearCursor_eavail : (s.clearCursor).eavail = s.eavail := rfl
@[simp] theorem clearCursor_ereq : (s.clearCursor).ereq = s.ereq := rfl
@[simp] theorem clearCursor_elsb : (s.clearCursor).elsb = s.elsb := rfl
@[simp] theorem clearCursor_src : (s.clearCursor).src = s.src := rfl
@[simp] theorem clearCursor_dst : (s.clearCursor).dst = s.dst := rfl
@[simp] theorem clearCursor_pay : (s.clearCursor).pay = s.pay := rfl
@[simp] theorem clearCursor_dimBits : (s.clearCursor).dimBits = s.dimBits := rfl
@[simp] theorem clearCursor_epoch : (s.clearCursor).epoch = s.epoch := rfl
@[simp] theorem clearCursor_reply : (s.clearCursor).reply = s.reply := rfl
@[simp] theorem clearCursor_pending : (s.clearCursor).pending = s.pending := rfl
/-! ### latchBit -/
@[simp] theorem latchBit_w : (s.latchBit b).w = s.w := rfl
@[simp] theorem latchBit_h : (s.latchBit b).h = s.h := rfl
@[simp] theorem latchBit_lsb : (s.latchBit b).lsb = s.lsb := rfl
@[simp] theorem latchBit_plen : (s.latchBit b).plen = s.plen := rfl
@[simp] theorem latchBit_arg : (s.latchBit b).arg = s.arg := rfl
@[simp] theorem latchBit_idx : (s.latchBit b).idx = s.idx := rfl
@[simp] theorem latchBit_curx : (s.latchBit b).curx = s.curx := rfl
@[simp] theorem latchBit_cury : (s.latchBit b).cury = s.cury := rfl
@[simp] theorem latchBit_curch : (s.latchBit b).curch = s.curch := rfl
@[simp] theorem latchBit_cursh : (s.latchBit b).cursh = s.cursh := rfl
@[simp] theorem latchBit_bitv : (s.latchBit b).bitv = b := rfl
@[simp] theorem latchBit_err : (s.latchBit b).err = s.err := rfl
@[simp] theorem latchBit_eavail : (s.latchBit b).eavail = s.eavail := rfl
@[simp] theorem latchBit_ereq : (s.latchBit b).ereq = s.ereq := rfl
@[simp] theorem latchBit_elsb : (s.latchBit b).elsb = s.elsb := rfl
@[simp] theorem latchBit_src : (s.latchBit b).src = s.src := rfl
@[simp] theorem latchBit_dst : (s.latchBit b).dst = s.dst := rfl
@[simp] theorem latchBit_pay : (s.latchBit b).pay = s.pay := rfl
@[simp] theorem latchBit_dimBits : (s.latchBit b).dimBits = s.dimBits := rfl
@[simp] theorem latchBit_epoch : (s.latchBit b).epoch = s.epoch := rfl
@[simp] theorem latchBit_reply : (s.latchBit b).reply = s.reply := rfl
@[simp] theorem latchBit_pending : (s.latchBit b).pending = s.pending := rfl
/-! ### setErr -/
@[simp] theorem setErr_w : (s.setErr k).w = s.w := rfl
@[simp] theorem setErr_h : (s.setErr k).h = s.h := rfl
@[simp] theorem setErr_lsb : (s.setErr k).lsb = s.lsb := rfl
@[simp] theorem setErr_plen : (s.setErr k).plen = s.plen := rfl
@[simp] theorem setErr_arg : (s.setErr k).arg = s.arg := rfl
@[simp] theorem setErr_idx : (s.setErr k).idx = s.idx := rfl
@[simp] theorem setErr_curx : (s.setErr k).curx = s.curx := rfl
@[simp] theorem setErr_cury : (s.setErr k).cury = s.cury := rfl
@[simp] theorem setErr_curch : (s.setErr k).curch = s.curch := rfl
@[simp] theorem setErr_cursh : (s.setErr k).cursh = s.cursh := rfl
@[simp] theorem setErr_bitv : (s.setErr k).bitv = s.bitv := rfl
@[simp] theorem setErr_err : (s.setErr k).err = k := rfl
@[simp] theorem setErr_eavail : (s.setErr k).eavail = s.eavail := rfl
@[simp] theorem setErr_ereq : (s.setErr k).ereq = s.ereq := rfl
@[simp] theorem setErr_elsb : (s.setErr k).elsb = s.elsb := rfl
@[simp] theorem setErr_src : (s.setErr k).src = s.src := rfl
@[simp] theorem setErr_dst : (s.setErr k).dst = s.dst := rfl
@[simp] theorem setErr_pay : (s.setErr k).pay = s.pay := rfl
@[simp] theorem setErr_dimBits : (s.setErr k).dimBits = s.dimBits := rfl
@[simp] theorem setErr_epoch : (s.setErr k).epoch = s.epoch := rfl
@[simp] theorem setErr_reply : (s.setErr k).reply = s.reply := rfl
@[simp] theorem setErr_pending : (s.setErr k).pending = s.pending := rfl
/-! ### setPlen -/
@[simp] theorem setPlen_w : (s.setPlen v64).w = s.w := rfl
@[simp] theorem setPlen_h : (s.setPlen v64).h = s.h := rfl
@[simp] theorem setPlen_lsb : (s.setPlen v64).lsb = s.lsb := rfl
@[simp] theorem setPlen_plen : (s.setPlen v64).plen = v64 := rfl
@[simp] theorem setPlen_arg : (s.setPlen v64).arg = s.arg := rfl
@[simp] theorem setPlen_idx : (s.setPlen v64).idx = s.idx := rfl
@[simp] theorem setPlen_curx : (s.setPlen v64).curx = s.curx := rfl
@[simp] theorem setPlen_cury : (s.setPlen v64).cury = s.cury := rfl
@[simp] theorem setPlen_curch : (s.setPlen v64).curch = s.curch := rfl
@[simp] theorem setPlen_cursh : (s.setPlen v64).cursh = s.cursh := rfl
@[simp] theorem setPlen_bitv : (s.setPlen v64).bitv = s.bitv := rfl
@[simp] theorem setPlen_err : (s.setPlen v64).err = s.err := rfl
@[simp] theorem setPlen_eavail : (s.setPlen v64).eavail = s.eavail := rfl
@[simp] theorem setPlen_ereq : (s.setPlen v64).ereq = s.ereq := rfl
@[simp] theorem setPlen_elsb : (s.setPlen v64).elsb = s.elsb := rfl
@[simp] theorem setPlen_src : (s.setPlen v64).src = s.src := rfl
@[simp] theorem setPlen_dst : (s.setPlen v64).dst = s.dst := rfl
@[simp] theorem setPlen_pay : (s.setPlen v64).pay = s.pay := rfl
@[simp] theorem setPlen_dimBits : (s.setPlen v64).dimBits = s.dimBits := rfl
@[simp] theorem setPlen_epoch : (s.setPlen v64).epoch = s.epoch := rfl
@[simp] theorem setPlen_reply : (s.setPlen v64).reply = s.reply := rfl
@[simp] theorem setPlen_pending : (s.setPlen v64).pending = s.pending := rfl
/-! ### recordInfo -/
@[simp] theorem recordInfo_w : (s.recordInfo e).w = s.w := by cases e <;> rfl
@[simp] theorem recordInfo_h : (s.recordInfo e).h = s.h := by cases e <;> rfl
@[simp] theorem recordInfo_lsb : (s.recordInfo e).lsb = s.lsb := by cases e <;> rfl
@[simp] theorem recordInfo_plen : (s.recordInfo e).plen = s.plen := by cases e <;> rfl
@[simp] theorem recordInfo_arg : (s.recordInfo e).arg = s.arg := by cases e <;> rfl
@[simp] theorem recordInfo_idx : (s.recordInfo e).idx = s.idx := by cases e <;> rfl
@[simp] theorem recordInfo_curx : (s.recordInfo e).curx = s.curx := by cases e <;> rfl
@[simp] theorem recordInfo_cury : (s.recordInfo e).cury = s.cury := by cases e <;> rfl
@[simp] theorem recordInfo_curch : (s.recordInfo e).curch = s.curch := by cases e <;> rfl
@[simp] theorem recordInfo_cursh : (s.recordInfo e).cursh = s.cursh := by cases e <;> rfl
@[simp] theorem recordInfo_bitv : (s.recordInfo e).bitv = s.bitv := by cases e <;> rfl
@[simp] theorem recordInfo_err : (s.recordInfo e).err = s.err := by cases e <;> rfl
@[simp] theorem recordInfo_src : (s.recordInfo e).src = s.src := by cases e <;> rfl
@[simp] theorem recordInfo_dst : (s.recordInfo e).dst = s.dst := by cases e <;> rfl
@[simp] theorem recordInfo_pay : (s.recordInfo e).pay = s.pay := by cases e <;> rfl
@[simp] theorem recordInfo_dimBits : (s.recordInfo e).dimBits = s.dimBits := by cases e <;> rfl
@[simp] theorem recordInfo_epoch : (s.recordInfo e).epoch = s.epoch := by cases e <;> rfl
@[simp] theorem recordInfo_reply : (s.recordInfo e).reply = s.reply := by cases e <;> rfl
@[simp] theorem recordInfo_pending : (s.recordInfo e).pending = s.pending := by cases e <;> rfl
/-! ### setCells -/
@[simp] theorem setCells_w : (s.setCells sp m).w = s.w := by cases sp <;> rfl
@[simp] theorem setCells_h : (s.setCells sp m).h = s.h := by cases sp <;> rfl
@[simp] theorem setCells_lsb : (s.setCells sp m).lsb = s.lsb := by cases sp <;> rfl
@[simp] theorem setCells_plen : (s.setCells sp m).plen = s.plen := by cases sp <;> rfl
@[simp] theorem setCells_arg : (s.setCells sp m).arg = s.arg := by cases sp <;> rfl
@[simp] theorem setCells_idx : (s.setCells sp m).idx = s.idx := by cases sp <;> rfl
@[simp] theorem setCells_curx : (s.setCells sp m).curx = s.curx := by cases sp <;> rfl
@[simp] theorem setCells_cury : (s.setCells sp m).cury = s.cury := by cases sp <;> rfl
@[simp] theorem setCells_curch : (s.setCells sp m).curch = s.curch := by cases sp <;> rfl
@[simp] theorem setCells_cursh : (s.setCells sp m).cursh = s.cursh := by cases sp <;> rfl
@[simp] theorem setCells_bitv : (s.setCells sp m).bitv = s.bitv := by cases sp <;> rfl
@[simp] theorem setCells_err : (s.setCells sp m).err = s.err := by cases sp <;> rfl
@[simp] theorem setCells_eavail : (s.setCells sp m).eavail = s.eavail := by cases sp <;> rfl
@[simp] theorem setCells_ereq : (s.setCells sp m).ereq = s.ereq := by cases sp <;> rfl
@[simp] theorem setCells_elsb : (s.setCells sp m).elsb = s.elsb := by cases sp <;> rfl
@[simp] theorem setCells_dimBits : (s.setCells sp m).dimBits = s.dimBits := by cases sp <;> rfl
@[simp] theorem setCells_epoch : (s.setCells sp m).epoch = s.epoch := by cases sp <;> rfl
@[simp] theorem setCells_reply : (s.setCells sp m).reply = s.reply := by cases sp <;> rfl
@[simp] theorem setCells_pending : (s.setCells sp m).pending = s.pending := by cases sp <;> rfl
/-! ### memWrite -/
@[simp] theorem memWrite_w : (memWrite s sp a v).w = s.w := by simp [memWrite]
@[simp] theorem memWrite_h : (memWrite s sp a v).h = s.h := by simp [memWrite]
@[simp] theorem memWrite_lsb : (memWrite s sp a v).lsb = s.lsb := by simp [memWrite]
@[simp] theorem memWrite_plen : (memWrite s sp a v).plen = s.plen := by simp [memWrite]
@[simp] theorem memWrite_arg : (memWrite s sp a v).arg = s.arg := by simp [memWrite]
@[simp] theorem memWrite_idx : (memWrite s sp a v).idx = s.idx := by simp [memWrite]
@[simp] theorem memWrite_curx : (memWrite s sp a v).curx = s.curx := by simp [memWrite]
@[simp] theorem memWrite_cury : (memWrite s sp a v).cury = s.cury := by simp [memWrite]
@[simp] theorem memWrite_curch : (memWrite s sp a v).curch = s.curch := by simp [memWrite]
@[simp] theorem memWrite_cursh : (memWrite s sp a v).cursh = s.cursh := by simp [memWrite]
@[simp] theorem memWrite_bitv : (memWrite s sp a v).bitv = s.bitv := by simp [memWrite]
@[simp] theorem memWrite_err : (memWrite s sp a v).err = s.err := by simp [memWrite]
@[simp] theorem memWrite_eavail : (memWrite s sp a v).eavail = s.eavail := by simp [memWrite]
@[simp] theorem memWrite_ereq : (memWrite s sp a v).ereq = s.ereq := by simp [memWrite]
@[simp] theorem memWrite_elsb : (memWrite s sp a v).elsb = s.elsb := by simp [memWrite]
@[simp] theorem memWrite_dimBits : (memWrite s sp a v).dimBits = s.dimBits := by simp [memWrite]
@[simp] theorem memWrite_epoch : (memWrite s sp a v).epoch = s.epoch := by simp [memWrite]
@[simp] theorem memWrite_reply : (memWrite s sp a v).reply = s.reply := by simp [memWrite]
@[simp] theorem memWrite_pending : (memWrite s sp a v).pending = s.pending := by simp [memWrite]
/-! ### putBit -/
@[simp] theorem putBit_w : (putBit s n p b).w = s.w := by simp [putBit]
@[simp] theorem putBit_h : (putBit s n p b).h = s.h := by simp [putBit]
@[simp] theorem putBit_lsb : (putBit s n p b).lsb = s.lsb := by simp [putBit]
@[simp] theorem putBit_plen : (putBit s n p b).plen = s.plen := by simp [putBit]
@[simp] theorem putBit_arg : (putBit s n p b).arg = s.arg := by simp [putBit]
@[simp] theorem putBit_idx : (putBit s n p b).idx = s.idx := by simp [putBit]
@[simp] theorem putBit_curx : (putBit s n p b).curx = s.curx := by simp [putBit]
@[simp] theorem putBit_cury : (putBit s n p b).cury = s.cury := by simp [putBit]
@[simp] theorem putBit_curch : (putBit s n p b).curch = s.curch := by simp [putBit]
@[simp] theorem putBit_cursh : (putBit s n p b).cursh = s.cursh := by simp [putBit]
@[simp] theorem putBit_bitv : (putBit s n p b).bitv = s.bitv := by simp [putBit]
@[simp] theorem putBit_err : (putBit s n p b).err = s.err := by simp [putBit]
@[simp] theorem putBit_eavail : (putBit s n p b).eavail = s.eavail := by simp [putBit]
@[simp] theorem putBit_ereq : (putBit s n p b).ereq = s.ereq := by simp [putBit]
@[simp] theorem putBit_elsb : (putBit s n p b).elsb = s.elsb := by simp [putBit]
@[simp] theorem putBit_dimBits : (putBit s n p b).dimBits = s.dimBits := by simp [putBit]
@[simp] theorem putBit_epoch : (putBit s n p b).epoch = s.epoch := by simp [putBit]
@[simp] theorem putBit_reply : (putBit s n p b).reply = s.reply := by simp [putBit]
@[simp] theorem putBit_pending : (putBit s n p b).pending = s.pending := by simp [putBit]

/-! ### cells -/
@[simp] theorem cells_setCells_same : (s.setCells sp m).cells sp = m := by cases sp <;> rfl
theorem cells_setCells_of_ne {sp sp' : Space} (h : sp' ≠ sp) : (s.setCells sp m).cells sp' = s.cells sp' := by
  cases sp <;> cases sp' <;> first | rfl | exact absurd rfl h
theorem memWrite_dst_eq : memWrite s .dst a v = { s with dst := storeByte s.dst a v } := rfl
theorem memWrite_pay_eq : memWrite s .pay a v = { s with pay := storeByte s.pay a v } := rfl
theorem memWrite_src_eq : memWrite s .src a v = { s with src := storeByte s.src a v } := rfl

/-! ### the loops -/
/-- The copy loop changes `DST` alone. -/
theorem copyBytes_eq : ∃ m, copyBytes s n = { s with dst := m } := by
  induction n with
  | zero => exact ⟨s.dst, rfl⟩
  | succ n ih => obtain ⟨m, hm⟩ := ih; exact ⟨_, by rw [copyBytes, hm]; rfl⟩
/-- The placement loop changes `DST` alone. -/
theorem placeBits_eq : ∃ m, placeBits s n = { s with dst := m } := by
  induction n with
  | zero => exact ⟨s.dst, rfl⟩
  | succ n ih => obtain ⟨m, hm⟩ := ih; exact ⟨_, by rw [placeBits, hm]; rfl⟩
/-- The payload loop changes `PAY` alone. -/
theorem unpackBytes_eq : ∃ m, unpackBytes s n = { s with pay := m } := by
  induction n with
  | zero => exact ⟨s.pay, rfl⟩
  | succ n ih => obtain ⟨m, hm⟩ := ih; exact ⟨_, by rw [unpackBytes, hm]; rfl⟩

@[simp] theorem putBit_src : (putBit s n p b).src = s.src := rfl
@[simp] theorem putBit_pay : (putBit s n p b).pay = s.pay := rfl
@[simp] theorem copyBytes_w : (copyBytes s n).w = s.w := by obtain ⟨_, hm⟩ := copyBytes_eq s n; rw [hm]
@[simp] theorem copyBytes_h : (copyBytes s n).h = s.h := by obtain ⟨_, hm⟩ := copyBytes_eq s n; rw [hm]
@[simp] theorem copyBytes_lsb : (copyBytes s n).lsb = s.lsb := by obtain ⟨_, hm⟩ := copyBytes_eq s n; rw [hm]
@[simp] theorem copyBytes_plen : (copyBytes s n).plen = s.plen := by obtain ⟨_, hm⟩ := copyBytes_eq s n; rw [hm]
@[simp] theorem copyBytes_arg : (copyBytes s n).arg = s.arg := by obtain ⟨_, hm⟩ := copyBytes_eq s n; rw [hm]
@[simp] theorem copyBytes_idx : (copyBytes s n).idx = s.idx := by obtain ⟨_, hm⟩ := copyBytes_eq s n; rw [hm]
@[simp] theorem copyBytes_curx : (copyBytes s n).curx = s.curx := by obtain ⟨_, hm⟩ := copyBytes_eq s n; rw [hm]
@[simp] theorem copyBytes_cury : (copyBytes s n).cury = s.cury := by obtain ⟨_, hm⟩ := copyBytes_eq s n; rw [hm]
@[simp] theorem copyBytes_curch : (copyBytes s n).curch = s.curch := by obtain ⟨_, hm⟩ := copyBytes_eq s n; rw [hm]
@[simp] theorem copyBytes_cursh : (copyBytes s n).cursh = s.cursh := by obtain ⟨_, hm⟩ := copyBytes_eq s n; rw [hm]
@[simp] theorem copyBytes_bitv : (copyBytes s n).bitv = s.bitv := by obtain ⟨_, hm⟩ := copyBytes_eq s n; rw [hm]
@[simp] theorem copyBytes_err : (copyBytes s n).err = s.err := by obtain ⟨_, hm⟩ := copyBytes_eq s n; rw [hm]
@[simp] theorem copyBytes_eavail : (copyBytes s n).eavail = s.eavail := by obtain ⟨_, hm⟩ := copyBytes_eq s n; rw [hm]
@[simp] theorem copyBytes_ereq : (copyBytes s n).ereq = s.ereq := by obtain ⟨_, hm⟩ := copyBytes_eq s n; rw [hm]
@[simp] theorem copyBytes_elsb : (copyBytes s n).elsb = s.elsb := by obtain ⟨_, hm⟩ := copyBytes_eq s n; rw [hm]
@[simp] theorem copyBytes_src : (copyBytes s n).src = s.src := by obtain ⟨_, hm⟩ := copyBytes_eq s n; rw [hm]
@[simp] theorem copyBytes_pay : (copyBytes s n).pay = s.pay := by obtain ⟨_, hm⟩ := copyBytes_eq s n; rw [hm]
@[simp] theorem copyBytes_dimBits : (copyBytes s n).dimBits = s.dimBits := by obtain ⟨_, hm⟩ := copyBytes_eq s n; rw [hm]
@[simp] theorem copyBytes_epoch : (copyBytes s n).epoch = s.epoch := by obtain ⟨_, hm⟩ := copyBytes_eq s n; rw [hm]
@[simp] theorem copyBytes_reply : (copyBytes s n).reply = s.reply := by obtain ⟨_, hm⟩ := copyBytes_eq s n; rw [hm]
@[simp] theorem copyBytes_pending : (copyBytes s n).pending = s.pending := by obtain ⟨_, hm⟩ := copyBytes_eq s n; rw [hm]
@[simp] theorem placeBits_w : (placeBits s n).w = s.w := by obtain ⟨_, hm⟩ := placeBits_eq s n; rw [hm]
@[simp] theorem placeBits_h : (placeBits s n).h = s.h := by obtain ⟨_, hm⟩ := placeBits_eq s n; rw [hm]
@[simp] theorem placeBits_lsb : (placeBits s n).lsb = s.lsb := by obtain ⟨_, hm⟩ := placeBits_eq s n; rw [hm]
@[simp] theorem placeBits_plen : (placeBits s n).plen = s.plen := by obtain ⟨_, hm⟩ := placeBits_eq s n; rw [hm]
@[simp] theorem placeBits_arg : (placeBits s n).arg = s.arg := by obtain ⟨_, hm⟩ := placeBits_eq s n; rw [hm]
@[simp] theorem placeBits_idx : (placeBits s n).idx = s.idx := by obtain ⟨_, hm⟩ := placeBits_eq s n; rw [hm]
@[simp] theorem placeBits_curx : (placeBits s n).curx = s.curx := by obtain ⟨_, hm⟩ := placeBits_eq s n; rw [hm]
@[simp] theorem placeBits_cury : (placeBits s n).cury = s.cury := by obtain ⟨_, hm⟩ := placeBits_eq s n; rw [hm]
@[simp] theorem placeBits_curch : (placeBits s n).curch = s.curch := by obtain ⟨_, hm⟩ := placeBits_eq s n; rw [hm]
@[simp] theorem placeBits_cursh : (placeBits s n).cursh = s.cursh := by obtain ⟨_, hm⟩ := placeBits_eq s n; rw [hm]
@[simp] theorem placeBits_bitv : (placeBits s n).bitv = s.bitv := by obtain ⟨_, hm⟩ := placeBits_eq s n; rw [hm]
@[simp] theorem placeBits_err : (placeBits s n).err = s.err := by obtain ⟨_, hm⟩ := placeBits_eq s n; rw [hm]
@[simp] theorem placeBits_eavail : (placeBits s n).eavail = s.eavail := by obtain ⟨_, hm⟩ := placeBits_eq s n; rw [hm]
@[simp] theorem placeBits_ereq : (placeBits s n).ereq = s.ereq := by obtain ⟨_, hm⟩ := placeBits_eq s n; rw [hm]
@[simp] theorem placeBits_elsb : (placeBits s n).elsb = s.elsb := by obtain ⟨_, hm⟩ := placeBits_eq s n; rw [hm]
@[simp] theorem placeBits_src : (placeBits s n).src = s.src := by obtain ⟨_, hm⟩ := placeBits_eq s n; rw [hm]
@[simp] theorem placeBits_pay : (placeBits s n).pay = s.pay := by obtain ⟨_, hm⟩ := placeBits_eq s n; rw [hm]
@[simp] theorem placeBits_dimBits : (placeBits s n).dimBits = s.dimBits := by obtain ⟨_, hm⟩ := placeBits_eq s n; rw [hm]
@[simp] theorem placeBits_epoch : (placeBits s n).epoch = s.epoch := by obtain ⟨_, hm⟩ := placeBits_eq s n; rw [hm]
@[simp] theorem placeBits_reply : (placeBits s n).reply = s.reply := by obtain ⟨_, hm⟩ := placeBits_eq s n; rw [hm]
@[simp] theorem placeBits_pending : (placeBits s n).pending = s.pending := by obtain ⟨_, hm⟩ := placeBits_eq s n; rw [hm]
@[simp] theorem unpackBytes_w : (unpackBytes s n).w = s.w := by obtain ⟨_, hm⟩ := unpackBytes_eq s n; rw [hm]
@[simp] theorem unpackBytes_h : (unpackBytes s n).h = s.h := by obtain ⟨_, hm⟩ := unpackBytes_eq s n; rw [hm]
@[simp] theorem unpackBytes_lsb : (unpackBytes s n).lsb = s.lsb := by obtain ⟨_, hm⟩ := unpackBytes_eq s n; rw [hm]
@[simp] theorem unpackBytes_plen : (unpackBytes s n).plen = s.plen := by obtain ⟨_, hm⟩ := unpackBytes_eq s n; rw [hm]
@[simp] theorem unpackBytes_arg : (unpackBytes s n).arg = s.arg := by obtain ⟨_, hm⟩ := unpackBytes_eq s n; rw [hm]
@[simp] theorem unpackBytes_idx : (unpackBytes s n).idx = s.idx := by obtain ⟨_, hm⟩ := unpackBytes_eq s n; rw [hm]
@[simp] theorem unpackBytes_curx : (unpackBytes s n).curx = s.curx := by obtain ⟨_, hm⟩ := unpackBytes_eq s n; rw [hm]
@[simp] theorem unpackBytes_cury : (unpackBytes s n).cury = s.cury := by obtain ⟨_, hm⟩ := unpackBytes_eq s n; rw [hm]
@[simp] theorem unpackBytes_curch : (unpackBytes s n).curch = s.curch := by obtain ⟨_, hm⟩ := unpackBytes_eq s n; rw [hm]
@[simp] theorem unpackBytes_cursh : (unpackBytes s n).cursh = s.cursh := by obtain ⟨_, hm⟩ := unpackBytes_eq s n; rw [hm]
@[simp] theorem unpackBytes_bitv : (unpackBytes s n).bitv = s.bitv := by obtain ⟨_, hm⟩ := unpackBytes_eq s n; rw [hm]
@[simp] theorem unpackBytes_err : (unpackBytes s n).err = s.err := by obtain ⟨_, hm⟩ := unpackBytes_eq s n; rw [hm]
@[simp] theorem unpackBytes_eavail : (unpackBytes s n).eavail = s.eavail := by obtain ⟨_, hm⟩ := unpackBytes_eq s n; rw [hm]
@[simp] theorem unpackBytes_ereq : (unpackBytes s n).ereq = s.ereq := by obtain ⟨_, hm⟩ := unpackBytes_eq s n; rw [hm]
@[simp] theorem unpackBytes_elsb : (unpackBytes s n).elsb = s.elsb := by obtain ⟨_, hm⟩ := unpackBytes_eq s n; rw [hm]
@[simp] theorem unpackBytes_src : (unpackBytes s n).src = s.src := by obtain ⟨_, hm⟩ := unpackBytes_eq s n; rw [hm]
@[simp] theorem unpackBytes_dst : (unpackBytes s n).dst = s.dst := by obtain ⟨_, hm⟩ := unpackBytes_eq s n; rw [hm]
@[simp] theorem unpackBytes_dimBits : (unpackBytes s n).dimBits = s.dimBits := by obtain ⟨_, hm⟩ := unpackBytes_eq s n; rw [hm]
@[simp] theorem unpackBytes_epoch : (unpackBytes s n).epoch = s.epoch := by obtain ⟨_, hm⟩ := unpackBytes_eq s n; rw [hm]
@[simp] theorem unpackBytes_reply : (unpackBytes s n).reply = s.reply := by obtain ⟨_, hm⟩ := unpackBytes_eq s n; rw [hm]
@[simp] theorem unpackBytes_pending : (unpackBytes s n).pending = s.pending := by obtain ⟨_, hm⟩ := unpackBytes_eq s n; rw [hm]

end

end Sys2Proof.Machine
end

