-- ==== Sys2Proof/Laws/Memory.lean ====
section
/-! SUPPORT. The laws of the byte memories (`20_memory.md` R52): a read after a write, and the canonical form kept by
every write. -/

namespace Sys2Proof.Machine

section
variable (s : State) (m : Memory) (sp : Space) (a k : Nat) (v : Byte)

/-! ### one list of cells -/

/-- A stored byte is the one loaded, whatever the list. -/
@[simp] theorem loadByte_storeByte_same : loadByte (storeByte m a v) a = some v := by
  induction m with
  | nil => simp [storeByte, loadByte]
  | cons c m ih =>
    obtain ⟨k, b⟩ := c
    by_cases h1 : a < k
    · simp [storeByte, loadByte, h1]
    · by_cases h2 : a = k <;> simp [storeByte, loadByte, h1, h2]
      simpa [h2] using ih

/-- A store leaves every other address alone. -/
theorem loadByte_storeByte_of_ne {k : Nat} (h : k ≠ a) : loadByte (storeByte m a v) k = loadByte m k := by
  induction m with
  | nil => simp [storeByte, loadByte, h]
  | cons c m ih =>
    obtain ⟨j, b⟩ := c
    by_cases h1 : a < j
    · simp [storeByte, loadByte, h1, h]
    · by_cases h2 : a = j
      · subst h2; simp [storeByte, loadByte, h]
      · simp only [storeByte, loadByte, h1, h2, if_false, ih]

/-- The cells after a store are the one stored and old ones. -/
theorem mem_storeByte {c : Host.Cell} (hc : c ∈ storeByte m a v) : c = (a, v) ∨ c ∈ m := by
  induction m with
  | nil => simpa [storeByte] using hc
  | cons d m ih =>
    obtain ⟨j, b⟩ := d
    by_cases h1 : a < j
    · simpa [storeByte, h1] using hc
    · by_cases h2 : a = j
      · rw [storeByte, if_neg h1, if_pos h2] at hc
        rcases List.mem_cons.1 hc with h | h
        · exact .inl h
        · exact .inr (List.mem_cons_of_mem _ h)
      · simp only [storeByte, h1, h2, if_false, List.mem_cons] at hc ⊢; tauto

/-- A store keeps the canonical form. -/
theorem storeByte_wf (hm : Memory.wf m) : Memory.wf (storeByte m a v) := by
  induction m with
  | nil => simp [Memory.wf, storeByte]
  | cons d m ih =>
    obtain ⟨j, b⟩ := d
    obtain ⟨hj, hm'⟩ := List.pairwise_cons.1 hm
    by_cases h1 : a < j
    · rw [storeByte, if_pos h1]
      refine List.pairwise_cons.2 ⟨fun c hc => ?_, hm⟩
      rcases List.mem_cons.1 hc with rfl | hc
      · exact h1
      · exact lt_trans h1 (hj c hc)
    · by_cases h2 : a = j
      · subst h2; rw [storeByte, if_neg h1, if_pos rfl]; exact List.pairwise_cons.2 ⟨hj, hm'⟩
      · rw [storeByte, if_neg h1, if_neg h2]
        refine List.pairwise_cons.2 ⟨fun c hc => ?_, ih hm'⟩
        rcases mem_storeByte m a v hc with rfl | hc
        · exact lt_of_le_of_ne (Nat.le_of_not_lt h1) (Ne.symm h2)
        · exact hj c hc

/-! ### the three spaces -/

/-- What a write does to reads, once and for all: the byte at that address of that space is the one written, every
other byte of every space is as before (R52). -/
theorem memRead_memWrite (sp' : Space) :
    memRead (memWrite s sp a v) sp' k = if sp' = sp ∧ k = a then v else memRead s sp' k := by
  by_cases h1 : sp' = sp
  · subst h1
    by_cases h2 : k = a
    · subst h2; simp [memRead, memWrite]
    · simp [memRead, memWrite, h2, loadByte_storeByte_of_ne _ _ _ h2]
  · simp [memRead, memWrite, h1, cells_setCells_of_ne _ _ h1]

@[simp] theorem memRead_memWrite_same : memRead (memWrite s sp a v) sp a = v := by
  simp [memRead_memWrite]

/-- A read depends on the cells of the space and on the reset counter alone. -/
theorem memRead_congr {s t : State} {sp : Space} (hc : t.cells sp = s.cells sp) (he : t.epoch = s.epoch) (a : Nat) :
    memRead t sp a = memRead s sp a := by
  simp [memRead, hc, he]

/-- The cells after a write. -/
theorem cells_memWrite (sp' : Space) :
    (memWrite s sp a v).cells sp' = if sp' = sp then storeByte (s.cells sp) a v else s.cells sp' := by
  by_cases h : sp' = sp
  · subst h; simp [memWrite]
  · simp [memWrite, h, cells_setCells_of_ne _ _ h]

/-- Every space in canonical form (log entry 5). -/
def CanonicalMemories (s : State) : Prop := ∀ sp : Space, (s.cells sp).wf

/-- After reset every space is in canonical form: nothing is listed. -/
theorem reset_canonical : CanonicalMemories State.reset := fun sp => by cases sp <;> exact List.Pairwise.nil

/-- A write keeps the canonical form of every space, whatever the address. -/
theorem memWrite_canonical (hs : CanonicalMemories s) : CanonicalMemories (memWrite s sp a v) := fun sp' => by
  rw [cells_memWrite]
  split
  · exact storeByte_wf _ _ _ (hs sp)
  · exact hs sp'

/-- The copy loop keeps the canonical form. -/
theorem copyBytes_canonical (hs : CanonicalMemories s) (n : Nat) : CanonicalMemories (copyBytes s n) := by
  induction n with
  | zero => exact hs
  | succ n ih => exact memWrite_canonical _ _ _ _ ih

/-- The placement loop keeps the canonical form. -/
theorem placeBits_canonical (hs : CanonicalMemories s) (n : Nat) : CanonicalMemories (placeBits s n) := by
  induction n with
  | zero => exact hs
  | succ n ih => exact memWrite_canonical _ _ _ _ ih

/-- The payload loop keeps the canonical form. -/
theorem unpackBytes_canonical (hs : CanonicalMemories s) (n : Nat) : CanonicalMemories (unpackBytes s n) := by
  induction n with
  | zero => exact hs
  | succ n ih => exact memWrite_canonical _ _ _ _ ih

/-- A write inside its space keeps the canonical form and the address bounds of all three spaces. -/
theorem memWrite_memoryInv (hs : MemoryInv s) (ha : a < sp.size s.dimBits) : MemoryInv (memWrite s sp a v) := by
  intro sp'
  rw [cells_memWrite, memWrite_dimBits]
  by_cases h : sp' = sp
  · subst h
    rw [if_pos rfl]
    refine ⟨storeByte_wf _ _ _ (hs sp').1, fun c hc => ?_⟩
    rcases mem_storeByte _ _ _ hc with rfl | hc
    · exact ha
    · exact (hs sp').2 c hc
  · rw [if_neg h]; exact hs sp'

/-- The memories of two states with the same cells and the same parameter are as good as each other. -/
theorem memoryInv_congr {s t : State} (hs : MemoryInv s) (hc : ∀ sp, t.cells sp = s.cells sp)
    (hd : t.dimBits = s.dimBits) : MemoryInv t := by
  intro sp; rw [hc, hd]; exact hs sp

end

end Sys2Proof.Machine
end

