-- ==== Sys2Proof/Laws/Ops.lean ====
section
/-! SUPPORT. One specification lemma per shared operation: everything the operation can do, said once. -/

namespace Sys2Proof.Machine

section
variable (s : State) (sp : Space) (a k n w : Nat) (v : Byte) (b : Bool) (p : Pos)

/-! ### how a command ends -/

/-- An error answers a next state: the recorded values, the code, nothing else (R187). -/
theorem raise_eq (f : Failure) : raise f s = .next ((s.recordInfo f.info).setErr f.kind) := rfl

/-- Success answers a next state with `STATUS` OK. -/
theorem finish_eq : finish s = .next (s.setErr .ok) := rfl

/-- Nothing recorded, nothing changed (R29). -/
@[simp] theorem recordInfo_none : s.recordInfo none = s := rfl

/-- The two ways a tested command ends. -/
theorem tested_cases (test : Option Failure) (body : State) :
    (∃ f, test = some f ∧
      (match test with | some f => raise f s | none => finish body) = raise f s) ∨
    (test = none ∧ (match test with | some f => raise f s | none => finish body) = finish body) := by
  cases test with
  | some f => exact .inl ⟨f, rfl, rfl⟩
  | none => exact .inr ⟨rfl, rfl⟩

/-- Reading memory ignores `STATUS`. -/
@[simp] theorem memRead_setErr (e : ErrorKind) : memRead (s.setErr e) sp a = memRead s sp a := by
  cases sp <;> rfl

/-- Reading memory ignores `PLEN`. -/
@[simp] theorem memRead_setPlen (v : Word) : memRead (s.setPlen v) sp a = memRead s sp a := by
  cases sp <;> rfl

/-- Reading memory ignores the error-information registers. -/
@[simp] theorem memRead_recordInfo (e : Option ErrorInfo) : memRead (s.recordInfo e) sp a = memRead s sp a := by
  cases e <;> cases sp <;> rfl

/-! ### bits -/

/-- `SetBit` sets its bit and no other (R10). -/
theorem bitOf_setBit (hk : k < 8) (j : Nat) : bitOf (setBit v k b) j = if j = k then b else bitOf v j := by
  unfold bitOf setBit
  by_cases hj : j < 8
  · cases b <;> by_cases h : j = k <;> simp [h, hj, hk] <;> omega
  · have hne : j ≠ k := by omega
    simp only [hne, if_false]
    rw [BitVec.getLsbD_of_ge _ _ (by omega), BitVec.getLsbD_of_ge _ _ (by omega)]

/-- Bytes with the same eight bits are equal. -/
theorem byte_ext {x y : Byte} (h : ∀ j < 8, bitOf x j = bitOf y j) : x = y :=
  BitVec.eq_of_getLsbD_eq fun i hi => h i hi

/-- A single-bit write, bit by bit, for every byte of every space (R120, R125). -/
theorem bitOf_memRead_putBit (hp : p.sh < 8) (sp : Space) (a j : Nat) :
    bitOf (memRead (putBit s w p b) sp a) j =
      if sp = .dst ∧ a = p.addr w ∧ j = p.sh then b else bitOf (memRead s sp a) j := by
  unfold putBit
  rw [memRead_memWrite]
  by_cases h : sp = .dst ∧ a = p.addr w
  · obtain ⟨rfl, rfl⟩ := h
    simp [bitOf_setBit _ _ _ hp]
  · rw [if_neg h, if_neg (fun h' => h ⟨h'.1, h'.2.1⟩)]

/-- A single-bit write touches one byte of `DST` only. -/
theorem memRead_putBit_of_ne (h : ¬(sp = .dst ∧ a = p.addr w)) : memRead (putBit s w p b) sp a = memRead s sp a := by
  unfold putBit; rw [memRead_memWrite, if_neg h]

/-! ### the loops -/

/-- The copy loop: the first `n` bytes of `DST` are those of `SRC`, every other byte is as before (R124). -/
theorem memRead_copyBytes :
    memRead (copyBytes s n) sp a = if sp = .dst ∧ a < n then memRead s .src a else memRead s sp a := by
  induction n with
  | zero => simp [copyBytes]
  | succ n ih =>
    rw [copyBytes, memRead_memWrite, ih]
    by_cases h1 : sp = .dst <;> by_cases h2 : a = n
    · subst h2; simp [h1]
    · have : a < n + 1 ↔ a < n := by omega
      simp [h1, h2, this]
    · simp [h1]
    · simp [h1]

/-- The payload loop: the first `n` bytes of `PAY` are those assembled from `SRC`, every other byte is as before
(R162). -/
theorem memRead_unpackBytes :
    memRead (unpackBytes s n) sp a = if sp = .pay ∧ a < n then payloadByte s.srcBit a else memRead s sp a := by
  induction n with
  | zero => simp [unpackBytes]
  | succ n ih =>
    rw [unpackBytes, memRead_memWrite, ih]
    by_cases h1 : sp = .pay <;> by_cases h2 : a = n
    · subst h2; simp [h1]
    · have : a < n + 1 ↔ a < n := by omega
      simp [h1, h2, this]
    · simp [h1]
    · simp [h1]

/-- The placement loop leaves every space but `DST` alone. -/
theorem memRead_placeBits_of_ne (h : sp ≠ .dst) : memRead (placeBits s n) sp a = memRead s sp a := by
  induction n with
  | zero => rfl
  | succ n ih => rw [placeBits, memRead_putBit_of_ne _ _ _ _ _ _ (fun h' => h h'.1), ih]

/-- The placement loop leaves a bit of `DST` alone that no placed index names. -/
theorem placeBits_other (hl : s.lsb.toNat ≤ 8) (hl0 : 0 < s.lsb.toNat) (j : Nat)
    (h : ∀ i < n, ¬(a = (s.streamPos i).addr s.w.toNat ∧ j = (s.streamPos i).sh)) :
    bitOf (memRead (placeBits s n) .dst a) j = bitOf (memRead s .dst a) j := by
  induction n with
  | zero => rfl
  | succ n ih =>
    have hsh : (s.streamPos n).sh < 8 := lt_of_lt_of_le (Nat.mod_lt _ hl0) hl
    rw [placeBits, bitOf_memRead_putBit _ _ _ _ hsh, if_neg (fun h' => h n (Nat.lt_succ_self n) h'.2),
      ih fun i hi => h i (Nat.lt_succ_of_lt hi)]

/-- The placement loop puts a stream bit where its index is, when no later index names the same bit. -/
theorem placeBits_placed (hl : s.lsb.toNat ≤ 8) (hl0 : 0 < s.lsb.toNat) {i : Nat} (hi : i < n)
    (hinj : ∀ i', i < i' → i' < n → ¬((s.streamPos i).addr s.w.toNat = (s.streamPos i').addr s.w.toNat ∧
      (s.streamPos i).sh = (s.streamPos i').sh)) :
    bitOf (memRead (placeBits s n) .dst ((s.streamPos i).addr s.w.toNat)) (s.streamPos i).sh = s.streamBit i := by
  induction n with
  | zero => omega
  | succ n ih =>
    have hsh : (s.streamPos n).sh < 8 := lt_of_lt_of_le (Nat.mod_lt _ hl0) hl
    rw [placeBits, bitOf_memRead_putBit _ _ _ _ hsh]
    rcases Nat.lt_succ_iff_lt_or_eq.1 hi with hlt | rfl
    · rw [if_neg (fun h' => hinj n hlt (Nat.lt_succ_self n) h'.2),
        ih hlt fun i' h1 h2 => hinj i' h1 (Nat.lt_succ_of_lt h2)]
    · simp

end

end Sys2Proof.Machine
end

