-- ==== Sys2Proof/Laws/Commands.lean ====
section
/-! SUPPORT. One specification lemma per test and per body of a command: each says every way the test can come out, so
that a proof about a command splits on it once; then how host events run as instructions. -/

namespace Sys2Proof.Machine

section
variable (s : State)

/-! ### sizes -/

/-- Every index bound is a bound of 63 bits (R7: `DIM_BITS ≤ 29`). -/
theorem idxLimit_le (d : DimBits) : d.idxLimit ≤ 2 ^ 63 :=
  Nat.pow_le_pow_right (by decide) (by have := d.le_max; unfold DimBits.idxBits; omega)

/-- `Total` over a legal geometry is below the index bound (R106, R135). -/
theorem total_lt_idxLimit (hl : s.LsbOk) (hw : s.WOk) (hh : s.HOk) : s.total < s.dimBits.idxLimit := by
  have h1 : s.w.toNat * s.h.toNat < 2 ^ s.dimBits.val * 2 ^ s.dimBits.val := Nat.mul_lt_mul'' hw hh
  have h2 : s.total ≤ s.w.toNat * s.h.toNat * 3 * 8 := Nat.mul_le_mul_left _ hl.2
  show _ < 2 ^ (2 * s.dimBits.val + 5)
  rw [show 2 * s.dimBits.val + 5 = s.dimBits.val + s.dimBits.val + 5 by ring, Nat.pow_add, Nat.pow_add]
  omega

/-- `EAVAIL` holds its number whole (R29). -/
theorem availBytes_toNat (hl : s.LsbOk) (hw : s.WOk) (hh : s.HOk) :
    s.availBytes.toNat = (s.total - headerBits) / byteBits := by
  have := total_lt_idxLimit s hl hw hh
  have := idxLimit_le s.dimBits
  unfold State.availBytes headerBits byteBits; rw [BitVec.toNat_ofNat]; omega

/-! ### the three tests -/

/-- The test of `CHKCAP` and `ENCODE` comes out in one of three ways (R137). -/
theorem capacityTest_cases :
    (¬(s.LsbOk ∧ s.WOk ∧ s.HOk ∧ s.LenOk) ∧ capacityTest s = some invalidParameter) ∨
    ((s.LsbOk ∧ s.WOk ∧ s.HOk ∧ s.LenOk) ∧ s.total < streamLen s.plen.toNat ∧
      capacityTest s = some ⟨.capacityExceeded, some ⟨s.availBytes, s.plen, s.lsb⟩⟩) ∨
    ((s.LsbOk ∧ s.WOk ∧ s.HOk ∧ s.LenOk) ∧ streamLen s.plen.toNat ≤ s.total ∧ capacityTest s = none) := by
  by_cases h : s.LsbOk ∧ s.WOk ∧ s.HOk ∧ s.LenOk
  · by_cases hf : s.total < streamLen s.plen.toNat
    · exact .inr (.inl ⟨h, hf, (if_neg (not_not.2 h)).trans (if_pos hf)⟩)
    · exact .inr (.inr ⟨h, not_lt.1 hf, (if_neg (not_not.2 h)).trans (if_neg hf)⟩)
  · exact .inl ⟨h, if_pos h⟩

/-- The test of `BIT.GET` and `BIT.PUT` comes out in one of three ways (R121 to R123). -/
theorem bitAccessTest_cases :
    (¬(s.LsbOk ∧ s.WOk ∧ s.WPos ∧ s.HOk) ∧ bitAccessTest s = some invalidParameter) ∨
    ((s.LsbOk ∧ s.WOk ∧ s.WPos ∧ s.HOk) ∧ s.h.toNat ≤ s.cury.toNat ∧ bitAccessTest s = some outOfGrid) ∨
    ((s.LsbOk ∧ s.WOk ∧ s.WPos ∧ s.HOk) ∧ s.cury.toNat < s.h.toNat ∧ bitAccessTest s = none) := by
  by_cases h : s.LsbOk ∧ s.WOk ∧ s.WPos ∧ s.HOk
  · by_cases hy : s.h.toNat ≤ s.cury.toNat
    · exact .inr (.inl ⟨h, hy, (if_neg (not_not.2 h)).trans (if_pos hy)⟩)
    · exact .inr (.inr ⟨h, not_le.1 hy, (if_neg (not_not.2 h)).trans (if_neg hy)⟩)
  · exact .inl ⟨h, if_pos h⟩

/-- The tests of `DECODE` come out in one of four ways (R162, R164). -/
theorem decodeTest_cases :
    (¬(s.LsbOk ∧ s.WOk ∧ s.HOk) ∧ decodeTest s = some invalidParameter) ∨
    ((s.LsbOk ∧ s.WOk ∧ s.HOk) ∧ s.total < headerBits ∧ decodeTest s = some ⟨.imageTooSmall, none⟩) ∨
    ((s.LsbOk ∧ s.WOk ∧ s.HOk) ∧ headerBits ≤ s.total ∧ s.total < streamLen s.declaredLen ∧
      decodeTest s =
        some ⟨.invalidDeclaredLength, some ⟨s.availBytes, BitVec.ofNat 64 s.declaredLen, s.lsb⟩⟩) ∨
    ((s.LsbOk ∧ s.WOk ∧ s.HOk) ∧ headerBits ≤ s.total ∧ streamLen s.declaredLen ≤ s.total ∧ decodeTest s = none) := by
  by_cases h : s.LsbOk ∧ s.WOk ∧ s.HOk
  · by_cases h32 : s.total < headerBits
    · exact .inr (.inl ⟨h, h32, (if_neg (not_not.2 h)).trans (if_pos h32)⟩)
    · by_cases hf : s.total < streamLen s.declaredLen
      · exact .inr (.inr (.inl ⟨h, not_lt.1 h32, hf,
          (if_neg (not_not.2 h)).trans ((if_neg h32).trans (if_pos hf))⟩))
      · exact .inr (.inr (.inr ⟨h, not_lt.1 h32, not_lt.1 hf,
          (if_neg (not_not.2 h)).trans ((if_neg h32).trans (if_neg hf))⟩))
  · exact .inl ⟨h, if_pos h⟩

/-! ### assembly -/

/-- Assembled bits as a sum (R74). -/
theorem assemble_eq_sum (g : Nat → Bool) (st n : Nat) :
    assemble g st n = ∑ j ∈ Finset.range n, (g (st + j)).toNat * 2 ^ j := by
  induction n with
  | zero => simp [assemble]
  | succ n ih => rw [assemble, Finset.sum_range_succ, ih, Nat.mul_comm]

/-- `n` assembled bits make a number below `2^n`. -/
theorem assemble_lt (g : Nat → Bool) (st n : Nat) : assemble g st n < 2 ^ n := by
  induction n with
  | zero => simp [assemble]
  | succ n ih => rw [assemble, Nat.pow_succ]; cases g (st + n) <;> simp <;> omega

/-- The declared length is a 32-bit number (R163). -/
theorem declaredLen_lt : s.declaredLen < 2 ^ 32 := assemble_lt _ _ _

/-! ### the two bodies -/

/-- The body of `ENCODE` changes `DST` alone. -/
theorem encodeBody_eq : ∃ m, encodeBody s = { s with dst := m } := by
  obtain ⟨m', h'⟩ := copyBytes_eq s s.gridBytes
  obtain ⟨m, h⟩ := placeBits_eq (copyBytes s s.gridBytes) (streamLen s.plen.toNat)
  exact ⟨m, by rw [encodeBody, h, h']⟩

/-- The body of `DECODE` changes `PLEN` and `PAY` alone. -/
theorem decodeBody_eq : ∃ m, decodeBody s = { s with plen := BitVec.ofNat 64 s.declaredLen, pay := m } := by
  obtain ⟨m, h⟩ := unpackBytes_eq s s.declaredLen
  exact ⟨m, by rw [decodeBody, h]; rfl⟩

/-! ### registers and host events -/

/-- Everything a register write other than to `CMD` can do (R176, R23). -/
theorem writeReg_cases (rn : RegNum) (v : Word) :
    (rn = 0x00 ∧ writeReg s rn v = { s with w := v }.clearCursor) ∨
    (rn = 0x01 ∧ writeReg s rn v = { s with h := v }) ∨
    (rn = 0x02 ∧ writeReg s rn v = { s with lsb := v }.clearCursor) ∨
    (rn = 0x03 ∧ writeReg s rn v = { s with plen := v }) ∨
    (rn = 0x04 ∧ writeReg s rn v = { s with arg := v }) ∨
    (4 < rn.toNat ∧ writeReg s rn v = s) := by
  by_cases h : 4 < rn.toNat
  · refine .inr (.inr (.inr (.inr (.inr ⟨h, ?_⟩))))
    unfold writeReg; split <;> first | omega | rfl
  · have hc : rn.toNat = 0 ∨ rn.toNat = 1 ∨ rn.toNat = 2 ∨ rn.toNat = 3 ∨ rn.toNat = 4 := by omega
    rcases hc with h | h | h | h | h
    · obtain rfl : rn = 0x00 := BitVec.eq_of_toNat_eq h
      exact .inl ⟨rfl, rfl⟩
    · obtain rfl : rn = 0x01 := BitVec.eq_of_toNat_eq h
      exact .inr (.inl ⟨rfl, rfl⟩)
    · obtain rfl : rn = 0x02 := BitVec.eq_of_toNat_eq h
      exact .inr (.inr (.inl ⟨rfl, rfl⟩))
    · obtain rfl : rn = 0x03 := BitVec.eq_of_toNat_eq h
      exact .inr (.inr (.inr (.inl ⟨rfl, rfl⟩)))
    · obtain rfl : rn = 0x04 := BitVec.eq_of_toNat_eq h
      exact .inr (.inr (.inr (.inr (.inl ⟨rfl, rfl⟩))))

/-- A command run by issue is the row's meaning (R83). -/
theorem runCommand_eq (c : Command) : runCommand c s = exec c.toInstr s := by cases c <;> rfl

/-- A list of events run after another. -/
theorem runEvents_append {t : State} (es fs : List HostEvent) (h : runEvents s es = .next t) :
    runEvents s (es ++ fs) = runEvents t fs := by
  induction es generalizing s with
  | nil => cases h; rfl
  | cons e es ih =>
    simp only [runEvents, List.cons_append] at h ⊢
    split at h
    · rename_i u hu; simp only [ih u h]
    · cases h
    · cases h

/-- The first event run, then the others. -/
theorem runEvents_cons {t : State} {e : HostEvent} (es : List HostEvent) (h : runEvent e s = .next t) :
    runEvents s (e :: es) = runEvents t es := by
  simp only [runEvents, h]

end

end Sys2Proof.Machine
end

