-- ==== Sys2Proof/Laws/PerInstr.lean ====
section
/-! SUPPORT. Statements made for every instruction, one lemma per constructor. The family `EncodingFits`: the words the
encoder gives an instruction carry the fixed bits of its row in the opcode table (`30_encoding.md` R76, R80). -/

namespace Sys2Proof.Laws.EncodingFits

/-- A command word selects its row by mask and match. -/
def Selects (c : Command) (w : Word) : Prop := w &&& c.mask = c.pattern

/-- The encoding of an instruction fits its row: a command word matches the row of its command, with the row's field
`b` in bit 8, and a register-port word has its `kind` in bit 72. -/
def Statement : Instr → Prop
  | .curSeek => ∃ w, encode .curSeek = .cmd w ∧ Selects .curSeek w
  | .curAdv => ∃ w, encode .curAdv = .cmd w ∧ Selects .curAdv w
  | .bitGet => ∃ w, encode .bitGet = .cmd w ∧ Selects .bitGet w
  | .bitPut b => ∃ w, encode (.bitPut b) = .cmd w ∧ Selects (.bitPut b) w ∧ w.getLsbD 8 = b
  | .gcopy => ∃ w, encode .gcopy = .cmd w ∧ Selects .gcopy w
  | .chkcap => ∃ w, encode .chkcap = .cmd w ∧ Selects .chkcap w
  | .encode => ∃ w, Sys2Proof.encode .encode = .cmd w ∧ Selects .encode w
  | .decode => ∃ w, encode .decode = .cmd w ∧ Selects .decode w
  | .wr rn v => ∃ w, encode (.wr rn v) = .port w ∧ w.getLsbD 72 = true
  | .rd rn => ∃ w, encode (.rd rn) = .port w ∧ w.getLsbD 72 = false

theorem curSeek : Statement .curSeek := ⟨_, rfl, rfl⟩
theorem curAdv : Statement .curAdv := ⟨_, rfl, rfl⟩
theorem bitGet : Statement .bitGet := ⟨_, rfl, rfl⟩
theorem bitPut (b : Bool) : Statement (.bitPut b) := ⟨_, rfl, by cases b <;> rfl, by cases b <;> rfl⟩
theorem gcopy : Statement .gcopy := ⟨_, rfl, rfl⟩
theorem chkcap : Statement .chkcap := ⟨_, rfl, rfl⟩
theorem encode : Statement .encode := ⟨_, rfl, rfl⟩
theorem decode : Statement .decode := ⟨_, rfl, rfl⟩
theorem wr (rn : RegNum) (v : Word) : Statement (.wr rn v) := ⟨_, rfl, portKind_encodePort true rn v⟩
theorem rd (rn : RegNum) : Statement (.rd rn) := ⟨_, rfl, portKind_encodePort false rn 0#64⟩

end Sys2Proof.Laws.EncodingFits
end

