-- ==== Sys2Proof/Tests/Slice0.lean ====
section
/-! SUPPORT. The model's own tests. Every expected value is taken from `spec/95_test_vectors.md` or from the tables of
the rule named beside it, never from the model. Then a witness for the hypotheses of each obligation. -/

namespace Sys2Proof.Tests

/- One theorem after the other: the closed checks below are many, and a thread for each costs more than it saves. -/
set_option Elab.async false

open Sys2Proof.Machine Sys2Proof.Claims

/-! ### helpers -/

/-- An outcome is a next state with a given property. -/
def after (o : Outcome) (P : State → Prop) [DecidablePred P] : Bool :=
  match o with
  | .next t => decide (P t)
  | _ => false

/-- What a computed check says. -/
theorem of_after {o : Outcome} {P : State → Prop} [DecidablePred P] (h : after o P = true) : ∃ t, o = .next t ∧ P t := by
  cases o with
  | next t => exact ⟨t, rfl, of_decide_eq_true h⟩
  | fault r => cases h
  | refused r => cases h

/-- Bytes listed from an address up. -/
def cells : Nat → List Byte → Memory
  | _, [] => []
  | a, b :: bs => (a, b) :: cells (a + 1) bs

/-- The bytes of a list of cells. -/
def bytes (m : Memory) : List Byte := m.map Prod.snd

/-- Reset with a geometry and a payload length. -/
def geom (w h l n : Word) : State := { State.reset with w := w, h := h, lsb := l, plen := n }

/-- A cursor put somewhere by hand. -/
def at_ (s : State) (i x y : Word) (c : Channel) (k : Word) : State :=
  { s with idx := i, curx := x, cury := y, curch := c, cursh := k }

/-- The five cursor registers. -/
def cursorOf (t : State) : Nat × Nat × Nat × Nat × Nat :=
  (t.idx.toNat, t.curx.toNat, t.cury.toNat, t.curch.index, t.cursh.toNat)

/-- The carrier of program P3. -/
def p3src : List Byte :=
  [0x10, 0x27, 0x3F, 0x80, 0xFF, 0x00, 0xAA, 0x01, 0x55, 0x66, 0x77, 0x02] ++
  [0x08, 0x09, 0x0A, 0xFF, 0xF8, 0xF7, 0x07, 0x00, 0x12, 0x34, 0x56, 0x78]

/-- The image program P3 ends with. -/
def p3dst : List Byte :=
  [0x12, 0x20, 0x38, 0x80, 0xF8, 0x00, 0xA8, 0x01, 0x50, 0x60, 0x70, 0x02] ++
  [0x08, 0x0C, 0x0A, 0xFF, 0xFA, 0xF1, 0x07, 0x00, 0x11, 0x34, 0x56, 0x78]

/-- The state of program P3 before `ENCODE`. -/
def p3 : State := { geom 3 2 3 2 with src := cells 0 p3src, pay := cells 0 [0xA5, 0x3C] }

/-- The state of V-DEC-1. -/
def dec1 : State := { geom 1 2 8 0 with src := cells 0 [0x02, 0x00, 0x00, 0x11, 0x00, 0xCA, 0xFE, 0x22] }

/-- The state of V-DEC-2, where the header declares one byte too many. -/
def dec2 : State := { geom 1 2 8 0 with src := cells 0 [0x03, 0x00, 0x00, 0x11, 0x00, 0xCA, 0xFE, 0x22] }

/-- The cursor of V-BIT-1 and V-BIT-2. -/
def bit1 : State := at_ { p3 with dst := [(8, 0x55)] } 20 2 0 .red 2

/-- The cursor of V-BIT-5: index 6 of a grid of two pixels. -/
def bit5 : State := at_ (geom 2 1 1 0) 6 0 1 .red 0

/-! ### decoding, against words written out from the tables of R76 and R80 -/

theorem test_decode_cursor_words :
    decodeTableWord 64 0x0000000000000001 = some .curSeek ∧ decodeTableWord 64 0x0000000000000002 = some .curAdv := by
  decide
theorem test_decode_bit_words :
    decodeTableWord 64 0x0000000000000003 = some .bitGet ∧ decodeTableWord 64 0x0000000000000004 = some (.bitPut false) ∧
    decodeTableWord 64 0x0000000000000104 = some (.bitPut true) ∧ decodeTableWord 64 0x0000000000000005 = some .gcopy := by
  decide
theorem test_decode_codec_words :
    decodeTableWord 64 0x0000000000000006 = some .chkcap ∧ decodeTableWord 64 0x0000000000000007 = some .encode ∧
    decodeTableWord 64 0x0000000000000008 = some .decode := by
  decide
/-- `kind` 1, `rn` 0x03, `v` 2, as in step 6 of program P1; and `RD STATUS`, whose `v` is ignored. -/
theorem test_decode_port_words :
    decodeTableWord 80 (1 * 2 ^ 72 + 0x03 * 2 ^ 64 + 2) = some (.wr 0x03 2) ∧
    decodeTableWord 80 0x1030000000000000002 = some (.wr 0x03 2) ∧
    decodeTableWord 80 (0 * 2 ^ 72 + 0x0B * 2 ^ 64 + 99) = some (.rd 0x0B) := by
  decide +kernel
/-- V-ILL-1 to V-ILL-7 (R81). -/
theorem test_decode_illegal_words :
    ([0x0, 0x9, 0xFF, 0x101, 0x204, 0x8000000000000007, 0x108].map (decodeTableWord 64)).all Option.isNone = true := by
  decide +kernel

/-! ### well-formedness: the ill-formed term of each check is refused -/

theorem test_wf_refuses_space_three : HostEvent.wf DimBits.default (.mwr 3 0 0) = false := by decide
theorem test_wf_refuses_read_of_space_three : HostEvent.wf DimBits.default (.mrd 3 0) = false := by decide
theorem test_wf_refuses_src_address : HostEvent.wf DimBits.default (.mwr 0 (2 ^ 34) 0) = false := by decide +kernel
theorem test_wf_refuses_dst_address : HostEvent.wf DimBits.default (.mrd 1 (2 ^ 34)) = false := by decide +kernel
theorem test_wf_refuses_pay_address : HostEvent.wf DimBits.default (.mwr 2 (2 ^ 32) 0) = false := by decide +kernel
theorem test_wf_accepts_last_addresses :
    HostEvent.wf DimBits.default (.mwr 0 (2 ^ 34 - 1) 0) = true ∧ HostEvent.wf DimBits.default (.mrd 2 (2 ^ 32 - 1)) = true :=
  by decide +kernel

/-! ### the cursor -/

/-- V-CUR-19. -/
theorem test_seek : after (exec .curSeek { geom 640 0 2 0 with arg := 1000000 })
    (fun t => cursorOf t = (1000000, 266, 260, 2, 0) ∧ t.err = .ok) = true := by decide +kernel
/-- The largest index of V-CUR: the last one of `DIM_BITS = 16`. -/
theorem test_seek_last : after (exec .curSeek { geom 65535 0 8 0 with arg := 137438953471 })
    (fun t => cursorOf t = (137438953471, 43691, 87382, 0, 7)) = true := by decide +kernel
/-- V-ADV-1, index 11 to 12: shift, channel and column wrap and the row steps. -/
theorem test_adv_carries : after (exec .curAdv (at_ (geom 2 0 2 0) 11 1 0 .blue 1))
    (fun t => cursorOf t = (12, 0, 1, 0, 0) ∧ t.err = .ok) = true := by decide +kernel
/-- V-ADV-3. -/
theorem test_adv_last : after (exec .curAdv (at_ (geom 1 0 1 0) 137438953471 0 45812984490 .green 0))
    (fun t => cursorOf t = (137438953471, 0, 45812984490, 1, 0) ∧ t.err = .outOfGrid) = true := by decide +kernel

/-! ### bits and the copy -/

/-- V-BIT-1. -/
theorem test_bit_get : after (exec .bitGet bit1) (fun t => t.bitv = true ∧ t.err = .ok) = true := by decide +kernel
/-- V-BIT-5. -/
theorem test_bit_get_outside : after (exec .bitGet bit5) (fun t => t.bitv = false ∧ t.err = .outOfGrid) = true := by
  decide +kernel
/-- V-BIT-2. -/
theorem test_bit_put : after (exec (.bitPut false) bit1) (fun t => t.dst = [(8, 0x51)] ∧ t.err = .ok) = true := by
  decide +kernel
/-- V-BIT-3. -/
theorem test_bit_put_one : after (exec (.bitPut true) (at_ { p3 with dst := [(5, 0x00)] } 13 1 0 .green 1))
    (fun t => t.dst = [(5, 0x02)]) = true := by decide +kernel
/-- V-GCP-1. -/
theorem test_gcopy : after (exec .gcopy { geom 2 1 0 0 with
      src := cells 0 [0x01, 0x02, 0x03, 0xFF, 0x04, 0x05, 0x06, 0x80], dst := cells 0 (List.replicate 12 0xAA) })
    (fun t => bytes t.dst = [0x01, 0x02, 0x03, 0xFF, 0x04, 0x05, 0x06, 0x80, 0xAA, 0xAA, 0xAA, 0xAA] ∧ t.err = .ok) =
    true := by decide +kernel
/-- V-GCP-2. -/
theorem test_gcopy_empty : after (exec .gcopy (geom 0 7 0 0)) (fun t => t.dst = [] ∧ t.err = .ok) = true := by
  decide +kernel

/-! ### capacity, encoder, decoder -/

/-- V-CAP-4. -/
theorem test_chkcap_exact : after (exec .chkcap (geom 4 4 2 8)) (fun t => t.err = .ok) = true := by decide +kernel
/-- V-CAP-5. -/
theorem test_chkcap_over : after (exec .chkcap (geom 4 4 2 9))
    (fun t => t.err = .capacityExceeded ∧ t.eavail = 8 ∧ t.ereq = 9 ∧ t.elsb = 2) = true := by decide +kernel
/-- Program P3, part A. -/
theorem test_encode : after (exec .encode p3) (fun t => bytes t.dst = p3dst ∧ t.err = .ok) = true := by decide +kernel
/-- V-SRC-2 with the empty payload, and program P2: the failed `ENCODE` leaves `DST` alone. -/
theorem test_encode_reject : after (exec .encode { geom 2 2 1 0 with dst := [(0, 0xEE)] })
    (fun t => t.err = .capacityExceeded ∧ t.eavail = 0 ∧ t.ereq = 0 ∧ t.elsb = 1 ∧ t.dst = [(0, 0xEE)]) = true := by
  decide +kernel
/-- Program P3, part C. -/
theorem test_decode : after (exec .decode { geom 3 2 3 0 with src := cells 0 p3dst })
    (fun t => t.plen = 2 ∧ bytes t.pay = [0xA5, 0x3C] ∧ t.err = .ok) = true := by decide +kernel
/-- V-DEC-2. -/
theorem test_decode_bad_length : after (exec .decode dec2)
    (fun t => t.err = .invalidDeclaredLength ∧ t.eavail = 2 ∧ t.ereq = 3 ∧ t.elsb = 8 ∧ t.plen = 0) = true := by
  decide +kernel

/-! ### the register port, reset, and the first step -/

/-- V-REG-1 and V-REG-6. -/
theorem test_write_register : after (exec (.wr 0x02 17) bit5) (fun t => t.lsb = 17 ∧ cursorOf t = (0, 0, 0, 0, 0)) = true := by
  decide +kernel
/-- V-ILL-4 before any operand is set: code 7, not 1. -/
theorem test_write_illegal_command : after (exec (.wr 0x0F 0x101) State.reset) (fun t => t.err = .illegalCommand) = true := by
  decide +kernel
/-- Program P2, step 8. -/
theorem test_read_status : after (exec (.rd 0x0B) { bit5 with err := .outOfGrid }) (fun t => t.reply = .word 6) = true := by
  decide +kernel
/-- V-REG-4. -/
theorem test_read_command_register : after (exec (.rd 0x0F) p3) (fun t => t.reply = .word 0) = true := by decide +kernel
/-- V-ADV-4: the first step after reset, as a bare command word and as a register-port word. -/
theorem test_first_step :
    after (step (State.reset.withFetchWord 64 0x2)) (fun t => t.err = .invalidParameter) = true ∧
    after (step (State.reset.withFetchWord 80 0x10F0000000000000002)) (fun t => t.err = .invalidParameter) = true := by
  decide +kernel
/-- Program P5, steps 3 and 4, through the transactions of the host: the last bit of a grid of two pixels. -/
theorem test_program_p5_read :
    after (runEvents State.reset (setGeom 2 1 1 ++ loadGrid .src [⟨0x01, 0x02, 0x03, 0x04⟩, ⟨0x05, 0x06, 0x07, 0x08⟩] ++
      curMapOp 5 ++ [evCmd .bitGet, evRd 0x0A]))
      (fun t => cursorOf t = (5, 1, 0, 2, 0) ∧ t.reply = .word 1) = true := by
  decide +kernel
/-- `LOADPAY` of program P1 (R84). -/
theorem test_loadpay : after (runEvents State.reset (loadPay [0x68, 0x69]))
    (fun t => t.pay = [(0, 0x68), (1, 0x69)] ∧ t.plen = 2) = true := by decide +kernel

/-! ### witnesses: states and operands that meet the hypotheses of the obligations, clause by clause -/

/-- The default geometry at its largest: every operand at the top of its legal range (V-CAP-11). -/
def topGeom : State := { geom 65535 65535 8 4294967295 with arg := 137438953471 }
/-- A cursor at the last index (V-ADV-3). -/
def lastIndex : State := at_ (geom 1 1 1 0) 137438953471 0 45812984490 .green 0
/-- A cursor one before it (V-ADV-2): `137438953470 = 3 * 45812984490`. -/
def beforeLast : State := at_ (geom 1 1 1 0) 137438953470 0 45812984490 .red 0
/-- The cursor of program P5 after its step 3, with both grids known. -/
def p5 : State := at_ { geom 2 1 1 0 with
  src := cells 0 [0x01, 0x02, 0x03, 0x04, 0x05, 0x06, 0x07, 0x08], dst := cells 0 (List.replicate 8 0xAA) } 5 1 0 .blue 0
/-- A payload that fits exactly (V-CAP-15), with its carrier. -/
def fits : State := { geom 1 2 8 2 with
  src := cells 0 [0x02, 0x00, 0x00, 0x11, 0x00, 0xCA, 0xFE, 0x22], pay := cells 0 [0xCA, 0xFE] }
/-- A state with host events pending. -/
def withPending (s : State) (es : List HostEvent) : State := { s with pending := es }

theorem witness_EncodedInstructionDecodesBack :
    ([.curSeek, .curAdv, .bitGet, .bitPut true, .gcopy, .chkcap, .encode, .decode, .wr 0xFF (-1), .rd 0xFF].map Instr.wf).all
      id = true := by decide
theorem witness_LegalCommandWordIsItsEncoding : decodeCommand 0x104 = .ok (.bitPut true) := by decide
theorem witness_IllegalCommandWords_opcode : decodeCommand 0x009 = .error .unassignedOpcode := by decide
theorem witness_IllegalCommandWords_reserved : decodeCommand 0x204 = .error .reservedBits := by decide
theorem witness_IllegalCommandWords_bit8 : decodeCommand 0x108 = .error .strayBit8 := by decide
theorem witness_PortWordFields_write : (0x10F0000000000000007#73).getLsbD 72 = true := by decide +kernel
theorem witness_PortWordFields_read : (0x00B0000000000000000#73).getLsbD 72 = false := by decide +kernel
theorem witness_StepRunsDecodedTransaction_ok :
    (withPending p5 [.word (.cmd 3)]).pending = [.word (.cmd 3)] ∧ decodeTx (.cmd 3) = .ok .bitGet := by
  decide +kernel
theorem witness_StepRunsDecodedTransaction_error :
    (withPending p5 [.word (.cmd 0)]).pending = [.word (.cmd 0)] ∧ decodeTx (.cmd 0) = .error .unassignedOpcode := by
  decide +kernel
theorem witness_FetchedWordRunsNext : decodeTableWord 64 0x6 = some .chkcap := by decide
theorem witness_MemoryPortMovesOneByte_write : 2 ^ 34 - 1 < Space.src.size p5.dimBits ∧
    (withPending p5 [.mwr Space.src.id (2 ^ 34 - 1) 7]).pending = [.mwr Space.src.id (2 ^ 34 - 1) 7] := by decide +kernel
theorem witness_MemoryPortMovesOneByte_read : 2 ^ 32 - 1 < Space.pay.size p5.dimBits ∧
    (withPending p5 [.mrd Space.pay.id (2 ^ 32 - 1)]).pending = [.mrd Space.pay.id (2 ^ 32 - 1)] := by decide +kernel
theorem witness_MemoryPortMovesOneByte_write_outside : Space.dst.size p5.dimBits ≤ 2 ^ 34 ∧
    (withPending p5 [.mwr Space.dst.id (2 ^ 34) 7]).pending = [.mwr Space.dst.id (2 ^ 34) 7] := by decide +kernel
theorem witness_MemoryPortMovesOneByte_read_outside : Space.pay.size p5.dimBits ≤ 2 ^ 32 ∧
    (withPending p5 [.mrd Space.pay.id (2 ^ 32)]).pending = [.mrd Space.pay.id (2 ^ 32)] := by decide +kernel
theorem witness_MemoryPortMovesOneByte_space_three :
    (withPending p5 [.mwr 3 0 7]).pending = [.mwr 3 0 7] ∧ (withPending p5 [.mrd 3 0]).pending = [.mrd 3 0] := by
  decide +kernel
theorem witness_ResetClearsEveryRegister :
    (withPending p5 [.reset]).pending = [.reset] ∧ p5.pending = [] := by decide +kernel
theorem witness_WellFormedEventsAlwaysStep :
    ∀ e ∈ (withPending p5 [.mwr 1 0 7, .reset, .word (.cmd 0), .mrd 2 5]).pending, e.wf p5.dimBits = true := by
  decide +kernel
theorem witness_RegisterWrite_ignored : ((0x05 ≤ (0x05 : RegNum).toNat ∧ (0x0E : RegNum).toNat ≤ 0x0E) ∧
    0x10 ≤ (0x10 : RegNum).toNat) ∧ 0x10 ≤ (0xFF : RegNum).toNat := by decide
theorem witness_RegisterWrite_command : decodeCommand 0x8 = .ok .decode ∧ decodeCommand 0xFF = .error .unassignedOpcode := by
  decide
theorem witness_RegisterRead : 0x0F ≤ (0x0F : RegNum).toNat ∧ 0x0F ≤ (0xFF : RegNum).toNat := by decide
theorem witness_WrittenOperandReadsBack : (0x00 : RegNum).toNat ≤ 4 ∧ (0x04 : RegNum).toNat ≤ 4 := by decide
theorem witness_OnlyCommandsChangeStatus_write : ∃ t, exec (.wr 0x10 9) p5 = .next t := ⟨_, rfl⟩
theorem witness_OnlyCommandsChangeStatus_read : ∃ t, exec (.rd 0x0F) p5 = .next t := ⟨_, rfl⟩
theorem witness_OnlyCommandsChangeStatus_port : (∃ t, runEvent (.mwr 0 5 9) p5 = .next t) ∧ ∃ t, runEvent (.mrd 0 5) p5 = .next t :=
  ⟨(of_after (P := fun _ => True) (by decide +kernel)).imp fun _ h => h.1,
    (of_after (P := fun _ => True) (by decide +kernel)).imp fun _ h => h.1⟩

/-- V-CUR-21 to V-CUR-25: each operand test of `CUR.SEEK` fails by itself, at the edge of its range. -/
theorem witness_CurSeek_refused :
    ([geom 0 1 1 0, geom 10 1 0 0, geom 10 1 9 0, geom 65536 1 1 0, { geom 10 1 1 0 with arg := 137438953472 }].all fun s =>
      decide ¬(LsbLegal s ∧ WLegal s ∧ WPositive s ∧ ArgLegal s)) = true := by decide +kernel
theorem witness_CurSeek_done : LsbLegal topGeom ∧ WLegal topGeom ∧ WPositive topGeom ∧ ArgLegal topGeom := by decide +kernel
theorem witness_CurAdv_refused : ¬(LsbLegal (geom 10 1 9 0) ∧ WLegal (geom 10 1 9 0) ∧ WPositive (geom 10 1 9 0)) := by
  decide +kernel
theorem witness_CurAdv_at_the_end : LsbLegal lastIndex ∧ WLegal lastIndex ∧ WPositive lastIndex ∧
    lastIndex.idx.toNat = 2 ^ (2 * lastIndex.dimBits.val + 5) - 1 := by decide +kernel
theorem witness_CurAdv_done : LsbLegal beforeLast ∧ WLegal beforeLast ∧ WPositive beforeLast ∧
    beforeLast.idx.toNat ≠ 2 ^ (2 * beforeLast.dimBits.val + 5) - 1 := by decide +kernel
theorem witness_CurAdvTracksClosedForm : CursorInv beforeLast ∧ LsbLegal beforeLast ∧ WLegal beforeLast ∧
    WPositive beforeLast ∧ beforeLast.idx.toNat + 1 < 2 ^ (2 * beforeLast.dimBits.val + 5) := by
  unfold CursorInv; decide +kernel
theorem witness_IndexStaysBelowItsBound_every_instruction :
    lastIndex.idx.toNat ≤ 2 ^ (2 * lastIndex.dimBits.val + 5) - 1 ∧ ∃ t, exec .curAdv lastIndex = .next t :=
  ⟨by decide +kernel, _, rfl⟩
theorem witness_IndexStaysBelowItsBound_seek : LsbLegal { lastIndex with arg := 137438953472 } ∧
    WLegal { lastIndex with arg := 137438953472 } ∧ WPositive { lastIndex with arg := 137438953472 } ∧
    2 ^ (2 * lastIndex.dimBits.val + 5) ≤ (State.arg { lastIndex with arg := 137438953472 }).toNat := by decide +kernel
theorem witness_IndexStaysBelowItsBound_total : LsbLegal topGeom ∧ WLegal topGeom ∧ HLegal topGeom := by decide +kernel
theorem witness_closed_form_parameters : 1 ≤ 1 ∧ 1 ≤ 8 ∧ 8 ≤ 8 := by decide
theorem witness_CurMapAndCurIdxAreInverse :
    (⟨0, 45812984490, .green, 0⟩ : Pos).x < 1 ∧ (⟨0, 45812984490, .green, 0⟩ : Pos).sh < 1 ∧
    curMap 1 1 137438953471 = ⟨0, 45812984490, .green, 0⟩ := by decide +kernel
theorem witness_IndicesNameDistinctStorageBits :
    (curMap 3 3 8).addr 3 = (curMap 3 3 8).addr 3 ∧ (curMap 3 3 8).sh = (curMap 3 3 8).sh := by decide
theorem witness_SetBitIsTheFormula : 0 ≤ 7 ∧ 7 ≤ 7 := by decide

theorem witness_bit_access_refused : ¬(LsbLegal (geom 2 65536 1 0) ∧ WLegal (geom 2 65536 1 0) ∧
    WPositive (geom 2 65536 1 0) ∧ HLegal (geom 2 65536 1 0)) := by decide +kernel
theorem witness_bit_access_outside : LsbLegal bit5 ∧ WLegal bit5 ∧ WPositive bit5 ∧ HLegal bit5 ∧
    bit5.h.toNat ≤ bit5.cury.toNat := by decide +kernel
theorem witness_bit_access_done : LsbLegal p5 ∧ WLegal p5 ∧ WPositive p5 ∧ HLegal p5 ∧ p5.cury.toNat < p5.h.toNat := by
  decide +kernel
theorem witness_BitPutKeepsAlphaAndHighBits :
    CursorInv p5 ∧ ∃ t, exec (.bitPut true) p5 = .next t ∧ t.err = .ok :=
  ⟨by unfold CursorInv; decide +kernel, of_after (by decide +kernel)⟩
theorem witness_BitAccessPastLastRow_columns : CursorInv bit5 ∧ LsbLegal bit5 ∧ WLegal bit5 ∧ WPositive bit5 := by
  unfold CursorInv; decide +kernel
theorem witness_BitAccessPastLastRow_codec : ∃ t, exec .encode fits = .next t ∨ exec .decode fits = .next t :=
  (of_after (o := exec .encode fits) (P := fun _ => True) (by decide +kernel)).imp fun _ h => .inl h.1
theorem witness_Gcopy_refused : ¬(WLegal (geom 65536 1 0 0) ∧ HLegal (geom 65536 1 0 0)) := by decide +kernel
theorem witness_Gcopy_done : WLegal (geom 0 7 0 0) ∧ HLegal (geom 0 7 0 0) ∧ WLegal p5 ∧ HLegal p5 := by decide +kernel

/-- V-CAP-21 to V-CAP-25: each operand test of `CHKCAP` fails by itself. -/
theorem witness_Chkcap_refused :
    ([geom 10 10 0 2, geom 10 10 9 2, geom 65536 1 1 0, geom 1 65536 1 0, geom 10 10 1 4294967296].all fun s =>
      decide ¬(LsbLegal s ∧ WLegal s ∧ HLegal s ∧ LenLegal s)) = true := by decide +kernel
theorem witness_Chkcap_over : LsbLegal (geom 4 4 2 9) ∧ WLegal (geom 4 4 2 9) ∧ HLegal (geom 4 4 2 9) ∧
    LenLegal (geom 4 4 2 9) ∧ totalBits (geom 4 4 2 9) < 32 + 8 * (geom 4 4 2 9).plen.toNat := by decide +kernel
theorem witness_Chkcap_fits : LsbLegal topGeom ∧ WLegal topGeom ∧ HLegal topGeom ∧ LenLegal topGeom ∧
    32 + 8 * topGeom.plen.toNat ≤ totalBits topGeom := by decide +kernel
theorem witness_ChkcapBoundary_exact : LsbLegal (geom 4 4 2 8) ∧ WLegal (geom 4 4 2 8) ∧ HLegal (geom 4 4 2 8) ∧
    LenLegal (geom 4 4 2 8) ∧ (∃ t, exec .chkcap (geom 4 4 2 8) = .next t) ∧ 32 ≤ totalBits (geom 4 4 2 8) ∧
    (geom 4 4 2 8).plen.toNat * 8 = totalBits (geom 4 4 2 8) - 32 :=
  ⟨by decide +kernel, by decide +kernel, by decide +kernel, by decide +kernel, ⟨_, rfl⟩, by decide +kernel,
    by decide +kernel⟩
theorem witness_ChkcapBoundary_one_more : 32 ≤ totalBits (geom 4 4 2 9) ∧
    (geom 4 4 2 9).plen.toNat * 8 = totalBits (geom 4 4 2 9) - 32 + 8 ∧ ∃ t, exec .chkcap (geom 4 4 2 9) = .next t :=
  ⟨by decide +kernel, by decide +kernel, _, rfl⟩
theorem witness_ChkcapBoundary_small : LsbLegal (geom 2 2 1 0) ∧ WLegal (geom 2 2 1 0) ∧ HLegal (geom 2 2 1 0) ∧
    LenLegal (geom 2 2 1 0) ∧ totalBits (geom 2 2 1 0) < 32 ∧ ∃ t, exec .chkcap (geom 2 2 1 0) = .next t :=
  ⟨by decide +kernel, by decide +kernel, by decide +kernel, by decide +kernel, by decide +kernel, _, rfl⟩
theorem witness_ChkcapIsPure : (∃ t, exec .chkcap fits = .next t) ∧
    (∃ t, exec .chkcap { fits with src := [], idx := 5, arg := 9 } = .next t) ∧
    ∃ t, exec .chkcap (geom 4 4 2 9) = .next t ∧ t.err = .capacityExceeded :=
  ⟨⟨_, rfl⟩, ⟨_, rfl⟩, of_after (by decide +kernel)⟩

theorem witness_EncodeFailsExactlyAsChkcap : (∃ t, exec .chkcap (geom 4 4 2 9) = .next t ∧ t.err ≠ .ok) ∧
    ∃ t, exec .chkcap fits = .next t ∧ t.err = .ok :=
  ⟨of_after (by decide +kernel), of_after (by decide +kernel)⟩
theorem witness_EncodeWritesStreamAndNothingElse : LsbLegal fits ∧ WLegal fits ∧ HLegal fits ∧ LenLegal fits ∧
    streamBits fits ≤ totalBits fits := by decide +kernel
theorem witness_encode_succeeds : ∃ t, exec .encode p3 = .next t ∧ t.err = .ok := of_after (by decide +kernel)
theorem witness_EncodeIsDeterministic : (∃ t, exec .encode fits = .next t ∧ t.err = .ok) ∧
    (∃ t, exec .encode { fits with dst := [(0, 9)], idx := 5, bitv := true } = .next t ∧ t.err = .ok) ∧
    (∃ t, exec .encode (geom 4 4 2 9) = .next t ∧ t.err = .capacityExceeded) :=
  ⟨of_after (by decide +kernel), of_after (by decide +kernel), of_after (by decide +kernel)⟩
/-- The image `ENCODE` makes of `fits` is its carrier, so `fits` itself is the second state of the round trip. -/
theorem witness_DecodeInvertsEncode : ∃ t, exec .encode fits = .next t ∧ t.err = .ok ∧
    ∀ a < gridExtent fits, memRead fits .src a = memRead t .dst a :=
  of_after (P := fun t => t.err = .ok ∧ ∀ a < gridExtent fits, memRead fits .src a = memRead t .dst a) (by decide +kernel)
theorem witness_Dst2SrcMovesTheGrid : WLegal p5 ∧ HLegal p5 := by decide +kernel

theorem witness_Decode_done : LsbLegal dec1 ∧ WLegal dec1 ∧ HLegal dec1 ∧ 32 ≤ totalBits dec1 ∧
    headerValue dec1 * 8 + 32 ≤ totalBits dec1 := by decide +kernel
theorem witness_DecodeErrors_operands : ¬(LsbLegal (geom 10 10 9 0) ∧ WLegal (geom 10 10 9 0) ∧ HLegal (geom 10 10 9 0)) := by
  decide +kernel
theorem witness_DecodeErrors_small : LsbLegal (geom 2 2 1 0) ∧ WLegal (geom 2 2 1 0) ∧ HLegal (geom 2 2 1 0) ∧
    totalBits (geom 2 2 1 0) < 32 := by decide +kernel
theorem witness_DecodeErrors_length : LsbLegal dec2 ∧ WLegal dec2 ∧ HLegal dec2 ∧ 32 ≤ totalBits dec2 ∧
    totalBits dec2 < headerValue dec2 * 8 + 32 := by decide +kernel
theorem witness_DecodeHasNoPartialResult : (∃ t, exec .decode dec2 = .next t ∧ t.err ≠ .ok) ∧
    ∃ t, exec .decode dec1 = .next t ∧ t.err = .ok :=
  ⟨of_after (by decide +kernel), of_after (by decide +kernel)⟩
theorem witness_DecodeIsDeterministic : (∃ t, exec .decode dec1 = .next t ∧ t.err = .ok) ∧
    (∃ t, exec .decode { dec1 with pay := [(0, 9)], plen := 77, idx := 5 } = .next t ∧ t.err = .ok) ∧
    ∃ t, exec .decode dec2 = .next t ∧ t.err = .invalidDeclaredLength :=
  ⟨of_after (by decide +kernel), of_after (by decide +kernel), of_after (by decide +kernel)⟩
theorem witness_HeightOnlyBoundsDecode : (∃ t, exec .decode dec1 = .next t ∧ t.err = .ok) ∧
    ∃ t, exec .decode { dec1 with h := 65535 } = .next t ∧ t.err = .ok :=
  ⟨of_after (by decide +kernel), of_after (by decide +kernel)⟩
theorem witness_StreamReadsBack : 4294967295 < 2 ^ 32 := by decide
theorem witness_DecodeEqualsItsParts : ∃ t, exec .decode dec1 = .next t ∧ t.err = .ok ∧ 47 < 32 + 8 * t.plen.toNat :=
  of_after (P := fun t => t.err = .ok ∧ 47 < 32 + 8 * t.plen.toNat) (by decide +kernel)

theorem witness_ErrorsLeaveNoPartialEffect : (∃ t, exec Command.encode.toInstr (geom 4 4 2 9) = .next t ∧ t.err ≠ .ok) ∧
    ∃ t, exec Command.bitGet.toInstr bit5 = .next t ∧ t.err ≠ .ok ∧ t.err ≠ .capacityExceeded ∧
      t.err ≠ .invalidDeclaredLength :=
  ⟨of_after (by decide +kernel),
    of_after (P := fun t => t.err ≠ .ok ∧ t.err ≠ .capacityExceeded ∧ t.err ≠ .invalidDeclaredLength) (by decide +kernel)⟩
theorem witness_KindsEachCommandReports : (∃ t, exec Command.curAdv.toInstr lastIndex = .next t ∧ t.err = .outOfGrid) ∧
    p5.err ≠ .containerCodecError :=
  ⟨of_after (by decide +kernel), by decide⟩
theorem witness_ErrorInfoWrittenOnlyWithItsCodes :
    (∃ t, exec Command.chkcap.toInstr (geom 4 4 2 9) = .next t ∧ t.err = .capacityExceeded) ∧
    (∃ t, exec Command.decode.toInstr dec2 = .next t ∧ t.err = .invalidDeclaredLength) ∧
    ∃ t, exec Command.decode.toInstr (geom 2 2 1 0) = .next t ∧ t.err = .imageTooSmall :=
  ⟨of_after (by decide +kernel), of_after (by decide +kernel), of_after (by decide +kernel)⟩
theorem witness_CursorMovesOnlyByItsCommands :
    ∃ t, step (withPending p5 [evCmd .curAdv]) = .next t ∧ ¬SameCursor (withPending p5 [evCmd .curAdv]) t :=
  of_after (P := fun t => ¬SameCursor (withPending p5 [evCmd .curAdv]) t) (by decide +kernel)
theorem witness_BitvBelongsToBitGet : (∃ t, step (withPending bit1 [evCmd .bitGet]) = .next t ∧ t.bitv ≠ bit1.bitv) ∧
    ∃ t, exec Command.chkcap.toInstr fits = .next t :=
  ⟨of_after (by decide +kernel), _, rfl⟩
theorem witness_WhoWritesEachSpace_src :
    ∃ t, step (withPending p5 [.mwr 0 3 0xFF]) = .next t ∧ ¬SameSpace .src (withPending p5 [.mwr 0 3 0xFF]) t := by
  obtain ⟨t, h1, h2⟩ := of_after (o := step (withPending p5 [.mwr 0 3 0xFF])) (P := fun t => memRead t .src 3 = 0xFF)
    (by decide +kernel)
  exact ⟨t, h1, fun h => absurd ((h 3).symm.trans h2) (by decide +kernel)⟩
theorem witness_WhoWritesEachSpace_dst :
    ∃ t, step (withPending p5 [evCmd .gcopy]) = .next t ∧ ¬SameSpace .dst (withPending p5 [evCmd .gcopy]) t := by
  obtain ⟨t, h1, h2⟩ := of_after (o := step (withPending p5 [evCmd .gcopy])) (P := fun t => memRead t .dst 3 = 0x04)
    (by decide +kernel)
  exact ⟨t, h1, fun h => absurd ((h 3).symm.trans h2) (by decide +kernel)⟩
theorem witness_WhoWritesEachSpace_pay :
    ∃ t, step (withPending { dec1 with pay := [(1, 0)] } [evCmd .decode]) = .next t ∧
      ¬SameSpace .pay (withPending { dec1 with pay := [(1, 0)] } [evCmd .decode]) t := by
  obtain ⟨t, h1, h2⟩ := of_after (o := step (withPending { dec1 with pay := [(1, 0)] } [evCmd .decode]))
    (P := fun t => memRead t .pay 1 = 0xFE) (by decide +kernel)
  exact ⟨t, h1, fun h => absurd ((h 1).symm.trans h2) (by decide +kernel)⟩
/-- A state that meets the invariant with a legal geometry, a cursor inside it, bytes in two spaces and a command
pending. -/
theorem witness_StepKeepsInvariant :
    Inv (withPending p5 [evCmd .curAdv]) ∧ ∃ t, step (withPending p5 [evCmd .curAdv]) = .next t ∧ t.err = .ok :=
  ⟨⟨fun sp => by cases sp <;> decide +kernel, by unfold CursorInv; decide +kernel, by unfold ErrorInv; decide +kernel⟩,
    of_after (by decide +kernel)⟩

end Sys2Proof.Tests
end

section
/-! PROOFS. One step on a pending transaction word (`00_scope.md` R8, `10_state.md` R24), and the word the interface
places in front (log entries 2 and 8). -/

namespace Sys2Proof.Machine

section
variable {s : State} {t : TxWord} {i : Instr} {nbits w : Nat}

/-- A step runs the first pending event, which is taken off the list (R24). -/
theorem step_of_pending {e : HostEvent} {rest : List HostEvent} (h : s.pending = e :: rest) :
    step s = runEvent e { s with pending := rest } := by
  simp only [step, h]

/-- A word that decodes runs as its instruction. -/
theorem runWord_of_decodes (h : decodeTx t = .ok i) : runWord t s = exec i s := by
  simp only [runWord, h]

/-- An illegal command word changes `STATUS` alone (R194). -/
theorem runWord_of_illegal {e : DecodeError} (h : decodeTx t = .error e) :
    runWord t s = .next { s with err := .illegalCommand } := by
  simp only [runWord, h]
  exact raise_eq s illegalCommand

/-- The table's numbering decodes where it names a transaction word and that word decodes. -/
theorem decodeTableWord_eq_some_iff :
    decodeTableWord nbits w = some i ↔ ∃ t, TxWord.ofTable nbits w = some t ∧ decodeTx t = .ok i := by
  unfold decodeTableWord
  cases TxWord.ofTable nbits w with
  | none => simp
  | some t => cases h : decodeTx t <;> simp [h, Except.toOption]

/-- A number that names a transaction word places it in front of what is pending. -/
theorem withFetchWord_of_ofTable (h : TxWord.ofTable nbits w = some t) :
    s.withFetchWord nbits w = { s with pending := .word t :: s.pending } := by
  simp only [State.withFetchWord, h]

end

/-- Settles O7: the first pending event runs, and a word's run is decided by its decoding. -/
theorem stepRunsDecodedTransaction : Obligations.StepRunsDecodedTransaction := by
  intro s tw rest hp
  have hstep : step s = runWord tw { s with pending := rest } := step_of_pending hp
  exact ⟨fun i hi => hstep.trans (runWord_of_decodes hi), fun e he => hstep.trans (runWord_of_illegal he)⟩

/-- Settles O8, from O7: taking the placed word off the list again leaves the state it was placed in. -/
theorem fetchedWordRunsNext : Obligations.FetchedWordRunsNext := by
  intro s nbits w i hw
  obtain ⟨t, ht, hi⟩ := decodeTableWord_eq_some_iff.1 hw
  rw [withFetchWord_of_ofTable ht]
  exact (stepRunsDecodedTransaction _ t s.pending rfl).1 i hi

end Sys2Proof.Machine
end

section
/-! PROOFS. `SetBit` as arithmetic (`00_scope.md` R10): a byte is the sum of what stands above bit `k`, bit `k` and
what stands below it, and `SetBit` changes the middle term alone. -/

namespace Sys2Proof.Machine

/-- A byte split at bit `k`. -/
theorem toNat_split_at_bit (v : Byte) (k : Nat) :
    v.toNat = 2 ^ (k + 1) * (v.toNat / 2 ^ (k + 1)) + (v.toNat % 2 ^ k + (v.getLsbD k).toNat * 2 ^ k) := by
  rw [← BitVec.testBit_toNat, Nat.toNat_testBit, Nat.mul_comm _ (2 ^ k), ← Nat.mod_pow_succ, Nat.div_add_mod]

/-- Two bytes that differ at most in bit `k` differ, as numbers, by what that bit stands for. -/
theorem toNat_add_bit_of_agree_off {x y : Byte} {k : Nat} (h : ∀ j, j ≠ k → x.getLsbD j = y.getLsbD j) :
    x.toNat + (y.getLsbD k).toNat * 2 ^ k = y.toNat + (x.getLsbD k).toNat * 2 ^ k := by
  have above : x.toNat / 2 ^ (k + 1) = y.toNat / 2 ^ (k + 1) := Nat.eq_of_testBit_eq fun j => by
    simpa only [Nat.testBit_div_two_pow, BitVec.testBit_toNat] using h (j + (k + 1)) (by omega)
  have below : x.toNat % 2 ^ k = y.toNat % 2 ^ k := Nat.eq_of_testBit_eq fun j => by
    by_cases hj : j < k
    · simpa [Nat.testBit_mod_two_pow, BitVec.testBit_toNat, hj] using h j (by omega)
    · simp [Nat.testBit_mod_two_pow, hj]
  have hx := toNat_split_at_bit x k
  have hy := toNat_split_at_bit y k
  rw [above, below] at hx
  omega

/-- Settles O26: the bits are those of `bitOf_setBit`, so `SetBit` moves the number by bit `k` alone. -/
theorem setBitIsTheFormula : Obligations.SetBitIsTheFormula := by
  intro v k b hk
  have hbits : ∀ j, (setBit v k b).getLsbD j = if j = k then b else v.getLsbD j :=
    bitOf_setBit k v b (by omega)
  have hset : (setBit v k b).getLsbD k = b := by simp [hbits]
  have hsum := toNat_add_bit_of_agree_off fun j hj => (hbits j).trans (if_neg hj)
  have hle : (v.getLsbD k).toNat * 2 ^ k ≤ v.toNat := by have := toNat_split_at_bit v k; omega
  rw [hset] at hsum
  exact ⟨hbits, by omega⟩

end Sys2Proof.Machine
end

section
/-! PROOFS. A command as its tests and its body (`45_register_access.md` R178, `60_exceptions.md` R187): what every
command can end with, what a body leaves alone, and that no command but `BIT.GET` looks at `BITV`. -/

namespace Sys2Proof.Machine

open Sys2Proof.Claims

section
variable {s t : State} {c : Command} {f : Failure}

/-! ### a command is a test and a body -/

/-- The failure a command ends with, if one of its tests fails. -/
def commandTest : Command → State → Option Failure
  | .curSeek, s => if ¬(s.LsbOk ∧ s.WOk ∧ s.WPos ∧ s.ArgOk) then some invalidParameter else none
  | .curAdv, s =>
    if ¬(s.LsbOk ∧ s.WOk ∧ s.WPos) then some invalidParameter
    else if s.idx.toNat = s.dimBits.idxLimit - 1 then some outOfGrid
    else none
  | .bitGet, s => bitAccessTest s
  | .bitPut _, s => bitAccessTest s
  | .gcopy, s => if ¬(s.WOk ∧ s.HOk) then some invalidParameter else none
  | .chkcap, s => capacityTest s
  | .encode, s => capacityTest s
  | .decode, s => decodeTest s

/-- What a command does to the state when its tests have passed, before `STATUS` is set. -/
def commandBody : Command → State → State
  | .curSeek, s => s.setCursor s.arg (curMap s.w.toNat s.lsb.toNat s.arg.toNat)
  | .curAdv, s => s.setCursor (s.idx + 1) (curAdv s.w.toNat s.lsb.toNat s.pos)
  | .bitGet, s => s.latchBit (chanBit s .src s.w.toNat s.pos)
  | .bitPut b, s => putBit s s.w.toNat s.pos b
  | .gcopy, s => copyBytes s s.gridBytes
  | .chkcap, s => s
  | .encode, s => encodeBody s
  | .decode, s => decodeBody s

/-- Every command is its test, then its body. -/
theorem exec_toInstr (c : Command) (s : State) :
    exec c.toInstr s = (commandTest c s).elim (finish (commandBody c s)) (raise · s) := by
  cases c with
  | curSeek => show execCurSeek s = _; simp only [execCurSeek, commandTest]; split_ifs <;> rfl
  | curAdv => show execCurAdv s = _; simp only [execCurAdv, commandTest]; split_ifs <;> rfl
  | gcopy => show execGcopy s = _; simp only [execGcopy, commandTest]; split_ifs <;> rfl
  | bitGet => show execBitGet s = (bitAccessTest s).elim _ _; unfold execBitGet; cases bitAccessTest s <;> rfl
  | bitPut b => show execBitPut b s = (bitAccessTest s).elim _ _; unfold execBitPut; cases bitAccessTest s <;> rfl
  | chkcap => show execChkcap s = (capacityTest s).elim _ _; unfold execChkcap; cases capacityTest s <;> rfl
  | encode => show execEncode s = (capacityTest s).elim _ _; unfold execEncode; cases capacityTest s <;> rfl
  | decode => show execDecode s = (decodeTest s).elim _ _; unfold execDecode; cases decodeTest s <;> rfl

/-- The two ways a command ends (R178). -/
theorem exec_toInstr_cases (h : exec c.toInstr s = .next t) :
    (∃ f, commandTest c s = some f ∧ t = (s.recordInfo f.info).setErr f.kind) ∨
    (commandTest c s = none ∧ t = (commandBody c s).setErr .ok) := by
  rw [exec_toInstr] at h
  cases hc : commandTest c s with
  | some f => rw [hc] at h; cases h; exact .inl ⟨f, rfl, rfl⟩
  | none => rw [hc] at h; cases h; exact .inr ⟨rfl, rfl⟩

/-! ### the failures -/

/-- Every failure a command can end with, and what a failure that records values has found (R186, R29). -/
inductive FailsWith (s : State) : Failure → Prop where
  | invalidParameter : FailsWith s invalidParameter
  | outOfGrid : FailsWith s outOfGrid
  | imageTooSmall : FailsWith s ⟨.imageTooSmall, none⟩
  | capacityExceeded : s.LsbOk → s.WOk → s.HOk → s.LenOk →
      FailsWith s ⟨.capacityExceeded, some ⟨s.availBytes, s.plen, s.lsb⟩⟩
  | invalidDeclaredLength : s.LsbOk → s.WOk → s.HOk → headerBits ≤ s.total →
      FailsWith s ⟨.invalidDeclaredLength, some ⟨s.availBytes, BitVec.ofNat 64 s.declaredLen, s.lsb⟩⟩

theorem failsWith_of_bitAccessTest (h : bitAccessTest s = some f) : FailsWith s f := by
  rcases bitAccessTest_cases s with ⟨-, e⟩ | ⟨-, -, e⟩ | ⟨-, -, e⟩ <;> cases e.symm.trans h
  · exact .invalidParameter
  · exact .outOfGrid

theorem failsWith_of_capacityTest (h : capacityTest s = some f) : FailsWith s f := by
  rcases capacityTest_cases s with ⟨-, e⟩ | ⟨⟨hl, hw, hh, hn⟩, -, e⟩ | ⟨-, -, e⟩ <;> cases e.symm.trans h
  · exact .invalidParameter
  · exact .capacityExceeded hl hw hh hn

theorem failsWith_of_decodeTest (h : decodeTest s = some f) : FailsWith s f := by
  rcases decodeTest_cases s with ⟨-, e⟩ | ⟨-, -, e⟩ | ⟨⟨hl, hw, hh⟩, h32, -, e⟩ | ⟨-, -, -, e⟩ <;>
    cases e.symm.trans h
  · exact .invalidParameter
  · exact .imageTooSmall
  · exact .invalidDeclaredLength hl hw hh h32

/-- A command fails in one of the ways of `FailsWith`. -/
theorem failsWith_of_commandTest (h : commandTest c s = some f) : FailsWith s f := by
  cases c with
  | curSeek =>
    simp only [commandTest] at h; split_ifs at h
    cases h; exact .invalidParameter
  | curAdv =>
    simp only [commandTest] at h; split_ifs at h
    · cases h; exact .outOfGrid
    · cases h; exact .invalidParameter
  | gcopy =>
    simp only [commandTest] at h; split_ifs at h
    cases h; exact .invalidParameter
  | bitGet => exact failsWith_of_bitAccessTest h
  | bitPut b => exact failsWith_of_bitAccessTest h
  | chkcap => exact failsWith_of_capacityTest h
  | encode => exact failsWith_of_capacityTest h
  | decode => exact failsWith_of_decodeTest h

/-! ### what the tests have established when they pass -/

theorem bitAccessTest_eq_none (h : bitAccessTest s = none) :
    (s.LsbOk ∧ s.WOk ∧ s.WPos ∧ s.HOk) ∧ s.cury.toNat < s.h.toNat := by
  rcases bitAccessTest_cases s with ⟨-, e⟩ | ⟨-, -, e⟩ | ⟨hops, hy, -⟩
  · cases e.symm.trans h
  · cases e.symm.trans h
  · exact ⟨hops, hy⟩

theorem capacityTest_eq_none (h : capacityTest s = none) :
    (s.LsbOk ∧ s.WOk ∧ s.HOk ∧ s.LenOk) ∧ streamLen s.plen.toNat ≤ s.total := by
  rcases capacityTest_cases s with ⟨-, e⟩ | ⟨-, -, e⟩ | ⟨hops, hfit, -⟩
  · cases e.symm.trans h
  · cases e.symm.trans h
  · exact ⟨hops, hfit⟩

/-! ### what a body leaves alone -/

/-- The space a command writes, if any (R32). -/
def writtenSpace : Command → Option Space
  | .bitPut _ => some .dst
  | .gcopy => some .dst
  | .encode => some .dst
  | .decode => some .pay
  | _ => none

/-- Only `CUR.SEEK` and `CUR.ADV` have a body that moves the cursor (R25). -/
theorem commandBody_sameCursor (h1 : c ≠ .curSeek) (h2 : c ≠ .curAdv) : SameCursor s (commandBody c s) := by
  cases c with
  | curSeek => exact absurd rfl h1
  | curAdv => exact absurd rfl h2
  | _ => simp [SameCursor, commandBody, encodeBody, decodeBody]

/-- Only `BIT.GET` has a body that writes `BITV` (R27). -/
theorem commandBody_bitv (h : c ≠ .bitGet) : (commandBody c s).bitv = s.bitv := by
  cases c with
  | bitGet => exact absurd rfl h
  | _ => simp [commandBody, encodeBody, decodeBody]

/-- No body writes the error-information registers (R29). -/
theorem commandBody_sameErrorInfo (c : Command) (s : State) : SameErrorInfo s (commandBody c s) := by
  cases c <;> simp [SameErrorInfo, commandBody, encodeBody, decodeBody]

/-- No body changes what the cursor's geometry depends on. -/
theorem commandBody_geometry (c : Command) (s : State) :
    (commandBody c s).w = s.w ∧ (commandBody c s).lsb = s.lsb ∧ (commandBody c s).dimBits = s.dimBits := by
  cases c <;> simp [commandBody, encodeBody, decodeBody]

theorem commandBody_epoch (c : Command) (s : State) : (commandBody c s).epoch = s.epoch := by
  cases c <;> simp [commandBody, encodeBody, decodeBody]

/-- A body writes no space but its command's own (R32). -/
theorem commandBody_cells {sp : Space} (h : writtenSpace c ≠ some sp) :
    (commandBody c s).cells sp = s.cells sp := by
  cases c with
  | bitPut b =>
    have hne : sp ≠ .dst := by rintro rfl; exact h rfl
    exact (cells_memWrite ..).trans (if_neg hne)
  | gcopy =>
    have hne : sp ≠ .dst := by rintro rfl; exact h rfl
    obtain ⟨m, hm⟩ := copyBytes_eq s s.gridBytes
    exact (congrArg (State.cells · sp) hm).trans (cells_setCells_of_ne s m hne)
  | encode =>
    have hne : sp ≠ .dst := by rintro rfl; exact h rfl
    obtain ⟨m, hm⟩ := encodeBody_eq s
    exact (congrArg (State.cells · sp) hm).trans (cells_setCells_of_ne s m hne)
  | decode =>
    have hne : sp ≠ .pay := by rintro rfl; exact h rfl
    obtain ⟨m, hm⟩ := unpackBytes_eq s s.declaredLen
    have hset : (commandBody .decode s).cells sp = (unpackBytes s s.declaredLen).cells sp := by cases sp <;> rfl
    exact hset.trans ((congrArg (State.cells · sp) hm).trans (cells_setCells_of_ne s m hne))
  | _ => cases sp <;> rfl

/-! ### from the body to the command -/

/-- Only `CUR.SEEK` and `CUR.ADV` move the cursor (R25). -/
theorem exec_sameCursor (h : exec c.toInstr s = .next t) (h1 : c ≠ .curSeek) (h2 : c ≠ .curAdv) :
    SameCursor s t := by
  rcases exec_toInstr_cases h with ⟨f, -, rfl⟩ | ⟨-, rfl⟩
  · simp [SameCursor]
  · exact commandBody_sameCursor h1 h2

/-- A command that changes `BITV` is a `BIT.GET` that succeeds (R27). -/
theorem exec_changes_bitv (h : exec c.toInstr s = .next t) (hb : t.bitv ≠ s.bitv) : c = .bitGet ∧ t.err = .ok := by
  rcases exec_toInstr_cases h with ⟨f, -, rfl⟩ | ⟨-, rfl⟩
  · exact absurd (by simp) hb
  · exact ⟨by_contra fun hc => hb (commandBody_bitv hc), rfl⟩

/-- A command changes no byte of a space but its own (R32). -/
theorem exec_sameSpace {sp : Space} (h : exec c.toInstr s = .next t) (hc : writtenSpace c ≠ some sp) :
    SameSpace sp s t := by
  intro a
  rcases exec_toInstr_cases h with ⟨f, -, rfl⟩ | ⟨-, rfl⟩
  · simp
  · rw [memRead_setErr]; exact memRead_congr (commandBody_cells hc) (commandBody_epoch c s) a

/-! ### independence of `BITV` -/

variable (s) (b : Bool)

@[simp] theorem memRead_latchBit (sp : Space) (a : Nat) : memRead (s.latchBit b) sp a = memRead s sp a := by
  cases sp <;> rfl

theorem memWrite_latchBit (sp : Space) (a : Nat) (v : Byte) :
    memWrite (s.latchBit b) sp a v = (memWrite s sp a v).latchBit b := by
  cases sp <;> rfl

theorem putBit_latchBit (w : Nat) (p : Pos) (v : Bool) :
    putBit (s.latchBit b) w p v = (putBit s w p v).latchBit b := by
  simp [putBit, memWrite_latchBit]

theorem copyBytes_latchBit (n : Nat) : copyBytes (s.latchBit b) n = (copyBytes s n).latchBit b := by
  induction n with
  | zero => rfl
  | succ n ih => rw [copyBytes, copyBytes, ih, memRead_latchBit, memWrite_latchBit]

theorem placeBits_latchBit (n : Nat) : placeBits (s.latchBit b) n = (placeBits s n).latchBit b := by
  induction n with
  | zero => rfl
  | succ n ih => rw [placeBits, ih, putBit_latchBit]; rfl

theorem unpackBytes_latchBit (n : Nat) : unpackBytes (s.latchBit b) n = (unpackBytes s n).latchBit b := by
  induction n with
  | zero => rfl
  | succ n ih => rw [unpackBytes, ih, memWrite_latchBit]; rfl

/-- No test looks at `BITV`. -/
theorem commandTest_latchBit (c : Command) : commandTest c (s.latchBit b) = commandTest c s := by
  cases c <;> rfl

/-- No body but that of `BIT.GET` looks at `BITV` or writes it (R27). -/
theorem commandBody_latchBit (hc : c ≠ .bitGet) :
    commandBody c (s.latchBit b) = (commandBody c s).latchBit b := by
  cases c with
  | bitGet => exact absurd rfl hc
  | curSeek => rfl
  | curAdv => rfl
  | chkcap => rfl
  | bitPut v => exact putBit_latchBit s b _ _ v
  | gcopy => exact copyBytes_latchBit s b _
  | encode =>
    show placeBits (copyBytes (s.latchBit b) s.gridBytes) _ = (placeBits _ _).latchBit b
    rw [copyBytes_latchBit, placeBits_latchBit]; rfl
  | decode =>
    show (unpackBytes (s.latchBit b) s.declaredLen).setPlen _ = _
    rw [unpackBytes_latchBit]; rfl

variable {s}

/-- A command other than `BIT.GET` does the same whatever `BITV` holds (R27). -/
theorem exec_latchBit (hc : c ≠ .bitGet) (h : exec c.toInstr s = .next t) :
    exec c.toInstr (s.latchBit b) = .next (t.latchBit b) := by
  rw [exec_toInstr, commandTest_latchBit, commandBody_latchBit s b hc]
  rcases exec_toInstr_cases h with ⟨⟨kind, info⟩, hf, rfl⟩ | ⟨hn, rfl⟩
  · rw [hf]; cases info <;> rfl
  · rw [hn]; rfl

end

end Sys2Proof.Machine
end

section
/-! PROOFS. Everything one step can do (`00_scope.md` R8, `45_register_access.md` R175 to R178, `20_memory.md` R58),
said once, and what a register write leaves alone (R176). -/

namespace Sys2Proof.Machine

open Sys2Proof.Claims

section
variable (s : State) (rn : RegNum) (v : Word)

/-! ### register writes -/

/-- A register write changes operand and cursor registers alone. -/
theorem writeReg_frame :
    writeReg s rn v = { s with
      w := (writeReg s rn v).w, h := (writeReg s rn v).h, lsb := (writeReg s rn v).lsb
      plen := (writeReg s rn v).plen, arg := (writeReg s rn v).arg, idx := (writeReg s rn v).idx
      curx := (writeReg s rn v).curx, cury := (writeReg s rn v).cury, curch := (writeReg s rn v).curch
      cursh := (writeReg s rn v).cursh } := by
  rcases writeReg_cases s rn v with ⟨-, h⟩ | ⟨-, h⟩ | ⟨-, h⟩ | ⟨-, h⟩ | ⟨-, h⟩ | ⟨-, h⟩ <;> rw [h] <;> rfl

@[simp] theorem writeReg_err : (writeReg s rn v).err = s.err := by rw [writeReg_frame]
@[simp] theorem writeReg_bitv : (writeReg s rn v).bitv = s.bitv := by rw [writeReg_frame]
@[simp] theorem writeReg_eavail : (writeReg s rn v).eavail = s.eavail := by rw [writeReg_frame]
@[simp] theorem writeReg_ereq : (writeReg s rn v).ereq = s.ereq := by rw [writeReg_frame]
@[simp] theorem writeReg_elsb : (writeReg s rn v).elsb = s.elsb := by rw [writeReg_frame]
@[simp] theorem writeReg_epoch : (writeReg s rn v).epoch = s.epoch := by rw [writeReg_frame]
@[simp] theorem writeReg_dimBits : (writeReg s rn v).dimBits = s.dimBits := by rw [writeReg_frame]
@[simp] theorem writeReg_cells (sp : Space) : (writeReg s rn v).cells sp = s.cells sp := by
  rw [writeReg_frame]; cases sp <;> rfl

/-- Only a write to `W` or `LSB` moves the cursor (R23). -/
theorem writeReg_sameCursor (hw : rn ≠ 0x00) (hl : rn ≠ 0x02) : SameCursor s (writeReg s rn v) := by
  rcases writeReg_cases s rn v with ⟨e, -⟩ | ⟨-, h⟩ | ⟨e, -⟩ | ⟨-, h⟩ | ⟨-, h⟩ | ⟨-, h⟩
  case inl => exact absurd e hw
  case inr.inr.inl => exact absurd e hl
  all_goals rw [h]; exact ⟨rfl, rfl, rfl, rfl, rfl⟩

/-- An operand register holds what was last written to it, whole (R21). -/
theorem readReg_writeReg_same (h : rn.toNat ≤ 4) : readReg (writeReg s rn v) rn = v := by
  rcases writeReg_cases s rn v with ⟨rfl, e⟩ | ⟨rfl, e⟩ | ⟨rfl, e⟩ | ⟨rfl, e⟩ | ⟨rfl, e⟩ | ⟨hrn, -⟩
  case inr.inr.inr.inr.inr => omega
  all_goals rw [e]; rfl

/-- A write to a register number other than that of `CMD` is a register write (R176). -/
theorem exec_wr_of_ne_cmd (h : rn ≠ 0x0F) : exec (.wr rn v) s = .next (writeReg s rn v) :=
  if_neg fun e => h (BitVec.eq_of_toNat_eq e)

end

/-! ### one event, one step -/

/-- Everything a host event can do when it is not refused. -/
inductive EventEffect (s : State) : HostEvent → State → Prop where
  | command {tw : TxWord} {i : Instr} {c : Command} {t : State} : decodeTx tw = .ok i → Issues i c →
      exec c.toInstr s = .next t → EventEffect s (.word tw) t
  | illegalWord {tw : TxWord} {e : DecodeError} : decodeTx tw = .error e →
      EventEffect s (.word tw) (s.setErr .illegalCommand)
  | illegalIssue {tw : TxWord} {v : Word} {e : DecodeError} : decodeTx tw = .ok (.wr 0x0F v) →
      decodeCommand v = .error e → EventEffect s (.word tw) (s.setErr .illegalCommand)
  | regWrite {tw : TxWord} {rn : RegNum} {v : Word} : decodeTx tw = .ok (.wr rn v) → rn ≠ 0x0F →
      EventEffect s (.word tw) (writeReg s rn v)
  | regRead {tw : TxWord} {rn : RegNum} : decodeTx tw = .ok (.rd rn) →
      EventEffect s (.word tw) { s with reply := .word (readReg s rn) }
  | portWrite {id : BitVec 2} {sp : Space} {a : Nat} (v : Byte) : Space.ofId id = some sp →
      a < sp.size s.dimBits → EventEffect s (.mwr id a v) (memWrite s sp a v)
  | portRead {id : BitVec 2} {sp : Space} {a : Nat} : Space.ofId id = some sp → a < sp.size s.dimBits →
      EventEffect s (.mrd id a) { s with reply := .byte (memRead s sp a) }
  | reset : EventEffect s .reset (applyReset s)

section
variable {s t : State}

/-- An instruction that is not a command's own row is a register-port transaction. -/
theorem instr_cases (i : Instr) :
    (∃ c : Command, i = c.toInstr) ∨ (∃ rn v, i = .wr rn v) ∨ ∃ rn, i = .rd rn := by
  cases i with
  | wr rn v => exact .inr (.inl ⟨rn, v, rfl⟩)
  | rd rn => exact .inr (.inr ⟨rn, rfl⟩)
  | curSeek => exact .inl ⟨.curSeek, rfl⟩
  | curAdv => exact .inl ⟨.curAdv, rfl⟩
  | bitGet => exact .inl ⟨.bitGet, rfl⟩
  | bitPut b => exact .inl ⟨.bitPut b, rfl⟩
  | gcopy => exact .inl ⟨.gcopy, rfl⟩
  | chkcap => exact .inl ⟨.chkcap, rfl⟩
  | encode => exact .inl ⟨.encode, rfl⟩
  | decode => exact .inl ⟨.decode, rfl⟩

/-- Issue of a legal command word is the command's own row (R178, R83). -/
theorem exec_wr_cmd_of_legal {c : Command} {v : Word} (h : decodeCommand v = .ok c) :
    exec (.wr 0x0F v) s = exec c.toInstr s := by
  show issueCommand v s = _
  rw [issueCommand, h]
  exact runCommand_eq s c

/-- Issue of an illegal command word changes `STATUS` alone (R194). -/
theorem exec_wr_cmd_of_illegal {e : DecodeError} {v : Word} (h : decodeCommand v = .error e) :
    exec (.wr 0x0F v) s = .next (s.setErr .illegalCommand) := by
  show issueCommand v s = _
  rw [issueCommand, h]
  rfl

/-- What a transaction word can do (R176 to R178). -/
theorem eventEffect_of_word {tw : TxWord} (h : runWord tw s = .next t) : EventEffect s (.word tw) t := by
  cases hd : decodeTx tw with
  | error e => cases (runWord_of_illegal hd).symm.trans h; exact .illegalWord hd
  | ok i =>
    rw [runWord_of_decodes hd] at h
    rcases instr_cases i with ⟨c, rfl⟩ | ⟨rn, v, rfl⟩ | ⟨rn, rfl⟩
    · exact .command hd (.inl rfl) h
    · by_cases hrn : rn = 0x0F
      · subst hrn
        cases hv : decodeCommand v with
        | ok c => exact .command hd (.inr ⟨v, rfl, hv⟩) ((exec_wr_cmd_of_legal hv).symm.trans h)
        | error e => cases (exec_wr_cmd_of_illegal hv).symm.trans h; exact .illegalIssue hd hv
      · cases (exec_wr_of_ne_cmd s rn v hrn).symm.trans h; exact .regWrite hd hrn
    · cases h; exact .regRead hd

/-- An access of the memory port that is not refused names a space and an address inside it (R58). -/
theorem withMemPort_eq_next {id : BitVec 2} {a : Nat} {k : Space → Outcome} (h : withMemPort id a s k = .next t) :
    ∃ sp, Space.ofId id = some sp ∧ a < sp.size s.dimBits ∧ k sp = .next t := by
  unfold withMemPort at h
  cases hid : Space.ofId id with
  | none => simp [hid] at h
  | some sp =>
    simp only [hid] at h
    split_ifs at h with ha
    exact ⟨sp, rfl, ha, h⟩

/-- A host event that is not refused does one of the things `EventEffect` lists. -/
theorem eventEffect_of_runEvent {e : HostEvent} (h : runEvent e s = .next t) : EventEffect s e t := by
  cases e with
  | word tw => exact eventEffect_of_word h
  | mwr id a v =>
    obtain ⟨sp, hid, ha, hk⟩ := withMemPort_eq_next h
    cases hk; exact .portWrite v hid ha
  | mrd id a =>
    obtain ⟨sp, hid, ha, hk⟩ := withMemPort_eq_next h
    cases hk; exact .portRead hid ha
  | reset => cases h; exact .reset

/-- Everything a step can do: nothing is pending and nothing happens, or the first pending event is taken off the
list and has its effect. -/
theorem step_cases (h : step s = .next t) :
    (s.pending = [] ∧ t = s) ∨
      ∃ e rest, s.pending = e :: rest ∧ EventEffect { s with pending := rest } e t := by
  cases hp : s.pending with
  | nil => simp only [step, hp] at h; cases h; exact .inl ⟨rfl, rfl⟩
  | cons e rest => exact .inr ⟨e, rest, rfl, eventEffect_of_runEvent ((step_of_pending hp).symm.trans h)⟩

end

end Sys2Proof.Machine
end

section
/-! PROOFS. The cursor map (`40_cursor.md` R101, R103): one advance is one index more, and where the positions of a
grid lie. -/

namespace Sys2Proof.Machine

section
variable {i w l n : Nat}

/-- One more, short of the end of a period. -/
theorem succ_div_mod_of_lt (h : i % l + 1 < l) : (i + 1) / l = i / l ∧ (i + 1) % l = i % l + 1 := by
  rw [Nat.div_mod_unique (by omega)]
  have := Nat.mod_add_div i l
  omega

/-- One more, at the end of a period. -/
theorem succ_div_mod_of_ge (hl : 1 ≤ l) (h : l ≤ i % l + 1) : (i + 1) / l = i / l + 1 ∧ (i + 1) % l = 0 := by
  rw [Nat.div_mod_unique (by omega)]
  have := Nat.mod_add_div i l
  have := Nat.mod_lt i hl
  rw [Nat.mul_add]; omega

/-- `CurMap` with its two quotients taken one after the other. -/
theorem curMap_eq (w l i : Nat) :
    curMap w l i = ⟨i / l / 3 % w, i / l / 3 / w, Channel.ofIndex (i / l % 3), i % l⟩ := by
  simp only [curMap, storeChannels, Nat.div_div_eq_div_mul]

/-- The end of a pixel: the next column, or the first of the next row (R103). -/
theorem nextPixel_eq (hw : 1 ≤ w) (q : Nat) (ch : Channel) (sh : Nat) :
    nextPixel w ⟨q % w, q / w, ch, sh⟩ = ⟨(q + 1) % w, (q + 1) / w, .red, 0⟩ := by
  by_cases h : q % w + 1 < w
  · obtain ⟨hd, hm⟩ := succ_div_mod_of_lt h
    simp [nextPixel, h, hd, hm]
  · obtain ⟨hd, hm⟩ := succ_div_mod_of_ge hw (Nat.not_lt.1 h)
    simp [nextPixel, h, hd, hm]

/-- One advance of the cursor from index `i` is the position of index `i + 1` (R104). -/
theorem curAdv_curMap (hw : 1 ≤ w) (hl : 1 ≤ l) (i : Nat) : curAdv w l (curMap w l i) = curMap w l (i + 1) := by
  rw [curMap_eq, curMap_eq]
  by_cases hs : i % l + 1 < l
  · obtain ⟨hd, hm⟩ := succ_div_mod_of_lt hs
    simp [curAdv, hs, hd, hm]
  · obtain ⟨hd, hm⟩ := succ_div_mod_of_ge hl (Nat.not_lt.1 hs)
    rw [hd, hm]
    have hch : i / l % 3 = 0 ∨ i / l % 3 = 1 ∨ i / l % 3 = 2 := by omega
    rcases hch with h | h | h
    · have h1 : (i / l + 1) % 3 = 1 := by omega
      have h2 : (i / l + 1) / 3 = i / l / 3 := by omega
      simp [curAdv, hs, h, h1, h2, Channel.ofIndex]
    · have h1 : (i / l + 1) % 3 = 2 := by omega
      have h2 : (i / l + 1) / 3 = i / l / 3 := by omega
      simp [curAdv, hs, h, h1, h2, Channel.ofIndex]
    · have h1 : (i / l + 1) % 3 = 0 := by omega
      have h2 : (i / l + 1) / 3 = i / l / 3 + 1 := by omega
      simp [curAdv, hs, h, h1, h2, Channel.ofIndex, nextPixel_eq hw]

/-- The row of an index below `Total` is below the height (R108). -/
theorem curMap_y_lt {h : Nat} (hi : i < w * h * 3 * l) : (curMap w l i).y < h := by
  have hpos : 0 < w * h * 3 * l := by omega
  have hw : 0 < w := Nat.pos_of_ne_zero fun e => by simp [e] at hpos
  have hl : 0 < l := Nat.pos_of_ne_zero fun e => by simp [e] at hpos
  show i / (l * 3) / w < h
  rw [Nat.div_div_eq_div_mul, Nat.div_lt_iff_lt_mul (by positivity)]
  calc i < w * h * 3 * l := hi
    _ = h * (l * 3 * w) := by ring

theorem Channel.index_lt (ch : Channel) : ch.index < 3 := by cases ch <;> decide

/-- A position inside the grid has its byte inside the grid's extent (R54). -/
theorem addr_lt {h : Nat} {p : Pos} (hx : p.x < w) (hy : p.y < h) : p.addr w < 4 * w * h := by
  have hrow : (p.y + 1) * w ≤ h * w := Nat.mul_le_mul_right w hy
  have := p.ch.index_lt
  have hexp : 4 * w * h = 4 * (h * w) := by ring
  rw [Nat.succ_mul] at hrow
  show 4 * (p.y * w + p.x) + p.ch.index < 4 * w * h
  omega

end

section
variable (s : State)

/-- The cursor registers hold a position whole when each of its numbers has 64 bits. -/
theorem setCursor_curMap_pos (v : Word) {w l i : Nat} (hi : i < 2 ^ 64) :
    (s.setCursor v (curMap w l i)).pos = curMap w l i := by
  have hx : (curMap w l i).x < 2 ^ 64 := ((Nat.mod_le _ _).trans (Nat.div_le_self _ _)).trans_lt hi
  have hy : (curMap w l i).y < 2 ^ 64 := ((Nat.div_le_self _ _).trans (Nat.div_le_self _ _)).trans_lt hi
  have hsh : (curMap w l i).sh < 2 ^ 64 := (Nat.mod_le _ _).trans_lt hi
  simp only [State.pos, setCursor_curx, setCursor_cury, setCursor_curch, setCursor_cursh, BitVec.toNat_ofNat,
    Nat.mod_eq_of_lt hx, Nat.mod_eq_of_lt hy, Nat.mod_eq_of_lt hsh]

/-- The grid's extent is inside `SRC` and `DST` (R50, R54). -/
theorem gridBytes_le_size (hw : s.WOk) (hh : s.HOk) : s.gridBytes ≤ Space.dst.size s.dimBits := by
  have hle : s.w.toNat * s.h.toNat ≤ 2 ^ s.dimBits.val * 2 ^ s.dimBits.val :=
    Nat.mul_le_mul (Nat.le_of_lt hw) (Nat.le_of_lt hh)
  calc s.gridBytes = 4 * (s.w.toNat * s.h.toNat) := Nat.mul_assoc _ _ _
    _ ≤ 4 * (2 ^ s.dimBits.val * 2 ^ s.dimBits.val) := Nat.mul_le_mul_left 4 hle
    _ = 2 ^ (2 * s.dimBits.val + 2) := by ring

/-- A position inside the grid has its byte inside `DST` (R54). -/
theorem addr_lt_size {p : Pos} (hw : s.WOk) (hh : s.HOk) (hx : p.x < s.w.toNat) (hy : p.y < s.h.toNat) :
    p.addr s.w.toNat < Space.dst.size s.dimBits :=
  (addr_lt hx hy).trans_le (gridBytes_le_size s hw hh)

/-- The bit of a stream index below `Total` is inside `DST` (R73). -/
theorem streamPos_addr_lt_size (hw : s.WOk) (hh : s.HOk) {i : Nat} (hi : i < s.total) :
    (s.streamPos i).addr s.w.toNat < Space.dst.size s.dimBits := by
  have hw0 : 0 < s.w.toNat := Nat.pos_of_ne_zero fun e => by simp [State.total, e] at hi
  exact addr_lt_size s hw hh (Nat.mod_lt _ hw0) (curMap_y_lt hi)

end

end Sys2Proof.Machine
end

section
/-! PROOFS. The invariant of the machine (`10_state.md` R26, R31, R34, `20_memory.md` R50): each of its three parts is
kept by each kind of event. -/

namespace Sys2Proof.Machine

open Sys2Proof.Claims

section
variable {s t : State} {c : Command}

/-! ### the memories -/

theorem copyBytes_memoryInv (hs : MemoryInv s) {n : Nat} (hn : n ≤ Space.dst.size s.dimBits) :
    MemoryInv (copyBytes s n) := by
  induction n with
  | zero => exact hs
  | succ n ih => exact memWrite_memoryInv _ _ _ _ (ih (by omega)) (by rw [copyBytes_dimBits]; omega)

theorem unpackBytes_memoryInv (hs : MemoryInv s) {n : Nat} (hn : n ≤ Space.pay.size s.dimBits) :
    MemoryInv (unpackBytes s n) := by
  induction n with
  | zero => exact hs
  | succ n ih => exact memWrite_memoryInv _ _ _ _ (ih (by omega)) (by rw [unpackBytes_dimBits]; omega)

theorem placeBits_memoryInv (hs : MemoryInv s) (hw : s.WOk) (hh : s.HOk) {n : Nat} (hn : n ≤ s.total) :
    MemoryInv (placeBits s n) := by
  induction n with
  | zero => exact hs
  | succ n ih =>
    refine memWrite_memoryInv _ _ _ _ (ih (by omega)) ?_
    rw [placeBits_dimBits]
    exact streamPos_addr_lt_size s hw hh hn

/-- The body of `ENCODE` writes inside the grid alone (R147). -/
theorem encodeBody_memoryInv (hs : MemoryInv s) (hw : s.WOk) (hh : s.HOk) (hfit : streamLen s.plen.toNat ≤ s.total) :
    MemoryInv (encodeBody s) := by
  have hcopy := copyBytes_memoryInv hs (gridBytes_le_size s hw hh)
  refine placeBits_memoryInv hcopy ?_ ?_ ?_
  · simpa [State.WOk] using hw
  · simpa [State.HOk] using hh
  · simpa [State.total] using hfit

/-- Over a legal geometry the cursor's column is inside the grid (R26). -/
theorem pos_x_lt (hs : CursorInv s) (hg : s.GeomOk) : s.pos.x < s.w.toNat := by
  obtain ⟨-, hpos, -⟩ := hs
  rw [hpos hg]
  exact Nat.mod_lt _ hg.2.2

/-- A body whose tests have passed keeps the memories inside their sizes (R50). -/
theorem commandBody_memoryInv (hm : MemoryInv s) (hc : CursorInv s) (h : commandTest c s = none) :
    MemoryInv (commandBody c s) := by
  cases c with
  | bitPut b =>
    obtain ⟨⟨hl, hw, hw0, hh⟩, hy⟩ := bitAccessTest_eq_none h
    exact memWrite_memoryInv _ _ _ _ hm (addr_lt_size s hw hh (pos_x_lt hc ⟨hl, hw, hw0⟩) hy)
  | gcopy =>
    have hops : s.WOk ∧ s.HOk := by by_contra hn; simp [commandTest, hn] at h
    exact copyBytes_memoryInv hm (gridBytes_le_size s hops.1 hops.2)
  | encode =>
    obtain ⟨⟨-, hw, hh, -⟩, hfit⟩ := capacityTest_eq_none h
    exact encodeBody_memoryInv hm hw hh hfit
  | decode =>
    have hu : MemoryInv (unpackBytes s s.declaredLen) := unpackBytes_memoryInv hm (declaredLen_lt s).le
    exact memoryInv_congr hu (fun sp => by cases sp <;> rfl) rfl
  | _ => exact memoryInv_congr hm (fun sp => by cases sp <;> rfl) rfl

/-! ### the cursor -/

/-- The invariant speaks of the cursor and its geometry alone. -/
theorem cursorInv_congr (hs : CursorInv s) (hg : t.w = s.w ∧ t.lsb = s.lsb ∧ t.dimBits = s.dimBits)
    (hc : SameCursor s t) : CursorInv t := by
  obtain ⟨hw, hl, hd⟩ := hg
  obtain ⟨hi, hx, hy, hch, hsh⟩ := hc
  simpa only [CursorInv, State.GeomOk, State.LsbOk, State.WOk, State.WPos, State.pos, hw, hl, hd, hi, hx, hy, hch, hsh]
    using hs

theorem curMap_zero (w l : Nat) : curMap w l 0 = Pos.origin := by
  simp [curMap, Pos.origin, Channel.ofIndex]

/-- The cursor at index 0 is good over every geometry (R23). -/
theorem cursorInv_of_origin (hi : t.idx = 0) (hp : t.pos = Pos.origin) : CursorInv t := by
  refine ⟨?_, fun _ => ?_, fun _ => ⟨hi, hp⟩⟩
  · rw [hi]; exact Nat.two_pow_pos _
  · rw [hp, hi]; exact (curMap_zero _ _).symm

/-- The cursor put at an index in range, over a legal geometry, is good (R26, R102). -/
theorem setCursor_cursorInv {v : Word} (hg : s.GeomOk) (hv : v.toNat < s.dimBits.idxLimit) :
    CursorInv (s.setCursor v (curMap s.w.toNat s.lsb.toNat v.toNat)) :=
  ⟨hv, fun _ => setCursor_curMap_pos s v v.isLt, fun hn => absurd hg hn⟩

/-- The body of `CUR.ADV` over a legal geometry, short of the last index, is a move to the next index (R105). -/
theorem commandBody_curAdv (hc : CursorInv s) (hg : s.GeomOk) (hi : (s.idx + 1).toNat = s.idx.toNat + 1) :
    commandBody .curAdv s = s.setCursor (s.idx + 1) (curMap s.w.toNat s.lsb.toNat (s.idx + 1).toNat) := by
  obtain ⟨-, hpos, -⟩ := hc
  have hadv := curAdv_curMap hg.2.2 hg.1.1 s.idx.toNat
  rw [hi, ← hadv, ← hpos hg]
  rfl

/-- A body whose tests have passed keeps the cursor at `CurMap` of its index (R26, R106). -/
theorem commandBody_cursorInv (hc : CursorInv s) (h : commandTest c s = none) : CursorInv (commandBody c s) := by
  cases c with
  | curSeek =>
    have hops : s.LsbOk ∧ s.WOk ∧ s.WPos ∧ s.ArgOk := by by_contra hn; simp only [commandTest, hn] at h; simp at h
    obtain ⟨hl, hw, hw0, ha⟩ := hops
    exact setCursor_cursorInv ⟨hl, hw, hw0⟩ ha
  | curAdv =>
    have hg : s.GeomOk := by by_contra hn; simp only [commandTest, hn] at h; simp at h
    have hlast : s.idx.toNat ≠ s.dimBits.idxLimit - 1 := fun e => by simp [commandTest, hg, e] at h
    have hlim := idxLimit_le s.dimBits
    have hidx := hc.1
    have hsucc : (s.idx + 1).toNat = s.idx.toNat + 1 := by
      rw [BitVec.toNat_add]; exact Nat.mod_eq_of_lt (by simp; omega)
    rw [commandBody_curAdv hc hg hsucc]
    exact setCursor_cursorInv hg (by omega)
  | _ => exact cursorInv_congr hc (commandBody_geometry _ s) (commandBody_sameCursor (by simp) (by simp))

/-- A register write keeps the cursor good: a write to `W` or `LSB` puts it at the origin (R23). -/
theorem writeReg_cursorInv (hc : CursorInv s) (rn : RegNum) (v : Word) : CursorInv (writeReg s rn v) := by
  rcases writeReg_cases s rn v with ⟨-, h⟩ | ⟨-, h⟩ | ⟨-, h⟩ | ⟨-, h⟩ | ⟨-, h⟩ | ⟨-, h⟩ <;> rw [h]
  · exact cursorInv_of_origin rfl rfl
  · exact hc
  · exact cursorInv_of_origin rfl rfl
  all_goals exact hc

/-! ### `STATUS` and the error-information registers -/

/-- Nothing recorded and a code other than 5 keep the ranges. -/
theorem errorInv_congr (hs : ErrorInv s) (hd : t.dimBits = s.dimBits) (hi : SameErrorInfo s t)
    (hk : t.err ≠ .containerCodecError) : ErrorInv t := by
  obtain ⟨-, hrange⟩ := hs
  obtain ⟨ha, hr, hl⟩ := hi
  exact ⟨hk, by rw [ha, hr, hl, hd]; exact hrange⟩

/-- `EAVAIL` keeps its range (R29, R31). -/
theorem availBytes_lt (hl : s.LsbOk) (hw : s.WOk) (hh : s.HOk) : s.availBytes.toNat < 2 ^ (s.dimBits.idxBits - 3) := by
  have htotal := total_lt_idxLimit s hl hw hh
  have hlim : s.dimBits.idxLimit = 2 ^ (s.dimBits.idxBits - 3) * 8 :=
    (Nat.pow_sub_mul_pow 2 (show 3 ≤ s.dimBits.idxBits by unfold DimBits.idxBits; omega)).symm
  rw [availBytes_toNat s hl hw hh]
  show (s.total - 32) / 8 < _
  omega

/-- A failing command keeps the ranges of the status and error-information registers (R29, R192). -/
theorem errorInv_of_failsWith (hs : ErrorInv s) {f : Failure} (hf : FailsWith s f) :
    ErrorInv ((s.recordInfo f.info).setErr f.kind) := by
  cases hf with
  | invalidParameter => exact errorInv_congr hs rfl ⟨rfl, rfl, rfl⟩ (by simp [invalidParameter])
  | outOfGrid => exact errorInv_congr hs rfl ⟨rfl, rfl, rfl⟩ (by simp [outOfGrid])
  | imageTooSmall => exact errorInv_congr hs rfl ⟨rfl, rfl, rfl⟩ (by simp)
  | capacityExceeded hl hw hh hn => exact ⟨by simp, availBytes_lt hl hw hh, hn, hl.2⟩
  | invalidDeclaredLength hl hw hh h32 =>
    refine ⟨by simp, availBytes_lt hl hw hh, ?_, hl.2⟩
    exact (Nat.mod_le _ _).trans_lt (declaredLen_lt s)

/-! ### the whole invariant -/

/-- A command keeps the invariant. -/
theorem exec_keeps_inv (hs : Inv s) (h : exec c.toInstr s = .next t) : Inv t := by
  obtain ⟨hm, hc, he⟩ := hs
  rcases exec_toInstr_cases h with ⟨f, hf, rfl⟩ | ⟨hn, rfl⟩
  · refine ⟨memoryInv_congr hm (fun sp => by cases sp <;> simp [State.cells]) (by simp), ?_, ?_⟩
    · exact cursorInv_congr hc (by simp) (by simp [SameCursor])
    · exact errorInv_of_failsWith he (failsWith_of_commandTest hf)
  · refine ⟨memoryInv_congr (commandBody_memoryInv hm hc hn) (fun sp => by cases sp <;> rfl) rfl, ?_, ?_⟩
    · exact cursorInv_congr (commandBody_cursorInv hc hn) ⟨rfl, rfl, rfl⟩ ⟨rfl, rfl, rfl, rfl, rfl⟩
    · exact errorInv_congr he (commandBody_geometry c s).2.2 (commandBody_sameErrorInfo c s) (by simp)

/-- A register write keeps the invariant. -/
theorem writeReg_keeps_inv (hs : Inv s) (rn : RegNum) (v : Word) : Inv (writeReg s rn v) where
  memory := memoryInv_congr hs.memory (writeReg_cells s rn v) (writeReg_dimBits s rn v)
  cursor := writeReg_cursorInv hs.cursor rn v
  errors := errorInv_congr hs.errors (by simp) (by simp [SameErrorInfo]) (by simpa using hs.errors.1)

/-- A memory-port write inside its space keeps the invariant. -/
theorem memWrite_keeps_inv (hs : Inv s) {sp : Space} {a : Nat} (v : Byte) (ha : a < sp.size s.dimBits) :
    Inv (memWrite s sp a v) where
  memory := memWrite_memoryInv s sp a v hs.memory ha
  cursor := cursorInv_congr hs.cursor (by simp) (by simp [SameCursor])
  errors := errorInv_congr hs.errors (by simp) (by simp [SameErrorInfo]) (by simpa using hs.errors.1)

/-- Cleared registers and memories meet the invariant, whatever the model's own fields are (R34). -/
theorem inv_cleared (d : DimBits) (n : Nat) (es : List HostEvent) :
    Inv { State.reset with dimBits := d, epoch := n, pending := es } where
  memory sp := by cases sp <;> exact ⟨List.Pairwise.nil, fun _ h => nomatch h⟩
  cursor := cursorInv_of_origin rfl rfl
  errors := ⟨by simp [State.reset], Nat.two_pow_pos _, by simp [State.reset], by simp [State.reset]⟩

/-- The invariant says nothing of what the host has been told or will do. -/
theorem inv_congr_host (hs : Inv s) (r : Reply) (es : List HostEvent) : Inv { s with reply := r, pending := es } where
  memory := memoryInv_congr hs.memory (fun sp => by cases sp <;> rfl) rfl
  cursor := hs.cursor
  errors := hs.errors

/-- An illegal command word keeps the invariant (R194). -/
theorem setErr_illegalCommand_keeps_inv (hs : Inv s) : Inv (s.setErr .illegalCommand) where
  memory := memoryInv_congr hs.memory (fun sp => by cases sp <;> rfl) rfl
  cursor := hs.cursor
  errors := errorInv_congr hs.errors rfl ⟨rfl, rfl, rfl⟩ (by simp)

/-- Every event of the host keeps the invariant. -/
theorem eventEffect_keeps_inv {e : HostEvent} (hs : Inv s) (h : EventEffect s e t) : Inv t := by
  cases h with
  | command _ _ hrun => exact exec_keeps_inv hs hrun
  | illegalWord _ => exact setErr_illegalCommand_keeps_inv hs
  | illegalIssue _ _ => exact setErr_illegalCommand_keeps_inv hs
  | regWrite _ _ => exact writeReg_keeps_inv hs _ _
  | regRead _ => exact inv_congr_host hs _ _
  | portWrite v _ ha => exact memWrite_keeps_inv hs v ha
  | portRead _ _ => exact inv_congr_host hs _ _
  | reset => exact inv_cleared _ _ _

end

/-- Settles O56: an idle step changes nothing, and every event keeps the invariant. -/
theorem stepKeepsInvariant : Obligations.StepKeepsInvariant := by
  intro s t hs h
  rcases step_cases h with ⟨-, rfl⟩ | ⟨e, rest, -, heff⟩
  · exact hs
  · exact eventEffect_keeps_inv (inv_congr_host hs _ _) heff

/-- Settles O57: the state after reset has everything cleared. -/
theorem resetMeetsInvariant : Obligations.ResetMeetsInvariant := inv_cleared _ _ _

end Sys2Proof.Machine
end

section
/-! PROOFS. Who writes which part of the state (`10_state.md` R21, R25, R27 to R29, R32). -/

namespace Sys2Proof.Machine

open Sys2Proof.Claims

/-- Settles O15: the register write stores the value and the register read finds it. -/
theorem writtenOperandReadsBack : Obligations.WrittenOperandReadsBack := by
  intro s rn v hrn
  have hcmd : rn ≠ 0x0F := fun e => by subst e; exact absurd hrn (by decide)
  refine ⟨writeReg s rn v, exec_wr_of_ne_cmd s rn v hcmd, ?_⟩
  show Host.Outcome.next { writeReg s rn v with reply := .word (readReg (writeReg s rn v) rn) } = _
  rw [readReg_writeReg_same s rn v hrn]

/-- Settles O16: each of the four transactions has an effect that leaves `STATUS` alone. -/
theorem onlyCommandsChangeStatus : Obligations.OnlyCommandsChangeStatus := by
  refine ⟨fun s t rn v hrn h => ?_, fun s t rn h => ?_, fun s t id a v h => ?_, fun s t id a h => ?_⟩
  · cases (exec_wr_of_ne_cmd s rn v hrn).symm.trans h
    exact writeReg_err s rn v
  · cases h; rfl
  · cases eventEffect_of_runEvent h with
    | portWrite _ _ _ => exact memWrite_err _ _ _ _
  · cases eventEffect_of_runEvent h with
    | portRead _ _ => rfl

section
variable {s : State}

/-- The declared length as the sum of its header bits (R163). -/
theorem declaredLen_eq_headerValue (s : State) : s.declaredLen = headerValue s := by
  show assemble s.srcBit 0 32 = _
  rw [assemble_eq_sum]
  simp only [Nat.zero_add]
  rfl

/-- The error-information registers after a command, by the code it ends with (R29). -/
def InfoMatchesCode (s t : State) : Prop :=
  (t.err = .capacityExceeded →
    t.eavail.toNat = (totalBits s - 32) / 8 ∧ t.ereq = s.plen ∧ t.elsb = s.lsb) ∧
  (t.err = .invalidDeclaredLength →
    32 ≤ totalBits s ∧ t.eavail.toNat = (totalBits s - 32) / 8 ∧ t.ereq.toNat = headerValue s ∧ t.elsb = s.lsb) ∧
  (t.err ≠ .capacityExceeded → t.err ≠ .invalidDeclaredLength → SameErrorInfo s t)

/-- A failing command records by its code. -/
theorem infoMatchesCode_of_failsWith {f : Failure} (hf : FailsWith s f) :
    InfoMatchesCode s ((s.recordInfo f.info).setErr f.kind) := by
  cases hf with
  | invalidParameter => exact ⟨nofun, nofun, fun _ _ => ⟨rfl, rfl, rfl⟩⟩
  | outOfGrid => exact ⟨nofun, nofun, fun _ _ => ⟨rfl, rfl, rfl⟩⟩
  | imageTooSmall => exact ⟨nofun, nofun, fun _ _ => ⟨rfl, rfl, rfl⟩⟩
  | capacityExceeded hl hw hh hn =>
    exact ⟨fun _ => ⟨availBytes_toNat s hl hw hh, rfl, rfl⟩, nofun, fun h => absurd rfl h⟩
  | invalidDeclaredLength hl hw hh h32 =>
    have hreq : (BitVec.ofNat 64 s.declaredLen).toNat = headerValue s :=
      (Nat.mod_eq_of_lt ((declaredLen_lt s).trans (by decide))).trans (declaredLen_eq_headerValue s)
    exact ⟨nofun, fun _ => ⟨h32, availBytes_toNat s hl hw hh, hreq, rfl⟩, fun _ h => absurd rfl h⟩

end

/-- Settles O52: a failing command records by its code, a succeeding one records nothing, and the host's write finds
a read-only register. -/
theorem errorInfoWrittenOnlyWithItsCodes : Obligations.ErrorInfoWrittenOnlyWithItsCodes := by
  refine ⟨fun c s t h => ?_, fun s v => ⟨rfl, rfl, rfl⟩⟩
  show InfoMatchesCode s t
  rcases exec_toInstr_cases h with ⟨f, hf, rfl⟩ | ⟨-, rfl⟩
  · exact infoMatchesCode_of_failsWith (failsWith_of_commandTest hf)
  · exact ⟨nofun, nofun, fun _ _ => commandBody_sameErrorInfo c s⟩

/-- Settles O53: of the events, only the two cursor commands, reset and the writes to `W` and `LSB` have an effect on
the cursor. -/
theorem cursorMovesOnlyByItsCommands : Obligations.CursorMovesOnlyByItsCommands := by
  intro s t h hmoved
  rcases step_cases h with ⟨-, rfl⟩ | ⟨e, rest, hp, heff⟩
  · exact absurd ⟨rfl, rfl, rfl, rfl, rfl⟩ hmoved
  cases heff with
  | @command tw i c _ hd hi hrun =>
    have hissue : StepIssues s c := ⟨i, ⟨tw, rest, hp, hd⟩, hi⟩
    by_cases h1 : c = .curSeek
    · exact .inl (h1 ▸ hissue)
    by_cases h2 : c = .curAdv
    · exact .inr (.inl (h2 ▸ hissue))
    exact absurd (exec_sameCursor hrun h1 h2) hmoved
  | @regWrite tw rn v hd _ =>
    have hrun : StepRuns s (.wr rn v) := ⟨tw, rest, hp, hd⟩
    by_cases h1 : rn = 0x00
    · exact .inr (.inr (.inr (.inl ⟨v, h1 ▸ hrun⟩)))
    by_cases h2 : rn = 0x02
    · exact .inr (.inr (.inr (.inr ⟨v, h2 ▸ hrun⟩)))
    exact absurd (writeReg_sameCursor _ rn v h1 h2) hmoved
  | portWrite v _ _ => exact absurd (by simp [SameCursor]) hmoved
  | reset => exact .inr (.inr (.inl ⟨rest, hp⟩))
  | _ => exact absurd ⟨rfl, rfl, rfl, rfl, rfl⟩ hmoved

/-- Settles O54: of the events, only a succeeding `BIT.GET` and reset have an effect on `BITV`, and every other
command commutes with putting a bit there. -/
theorem bitvBelongsToBitGet : Obligations.BitvBelongsToBitGet := by
  refine ⟨fun s t h hb => ?_, fun c s t b hc h => exec_latchBit b hc h⟩
  rcases step_cases h with ⟨-, rfl⟩ | ⟨e, rest, hp, heff⟩
  · exact absurd rfl hb
  cases heff with
  | @command tw i c _ hd hi hrun =>
    obtain ⟨rfl, hok⟩ := exec_changes_bitv hrun hb
    exact .inl ⟨⟨i, ⟨tw, rest, hp, hd⟩, hi⟩, hok⟩
  | regWrite _ _ => exact absurd (writeReg_bitv _ _ _) hb
  | portWrite v _ _ => exact absurd (memWrite_bitv _ _ _ _) hb
  | reset => exact .inr ⟨rest, hp⟩
  | _ => exact absurd rfl hb

/-- A step that changes a byte of a space is a memory-port write to it, reset, or a command that writes it (R32). -/
theorem step_changes_space {s t : State} {sp : Space} (h : step s = .next t) (hch : ¬SameSpace sp s t) :
    StepWritesPort s sp ∨ StepResets s ∨ ∃ c, StepIssues s c ∧ writtenSpace c = some sp := by
  rcases step_cases h with ⟨-, rfl⟩ | ⟨e, rest, hp, heff⟩
  · exact absurd (fun _ => rfl) hch
  cases heff with
  | @command tw i c _ hd hi hrun =>
    refine .inr (.inr ⟨c, ⟨i, ⟨tw, rest, hp, hd⟩, hi⟩, by_contra fun hne => hch ?_⟩)
    exact exec_sameSpace (s := { s with pending := rest }) hrun hne
  | @portWrite id sp' a v hid _ =>
    by_cases hsp : sp = sp'
    · exact .inl ⟨id, a, v, rest, hp, hsp ▸ hid⟩
    · refine absurd (fun k => ?_) hch
      rw [memRead_memWrite, if_neg fun e => hsp e.1]
      exact memRead_congr rfl rfl k
  | reset => exact .inr (.inl ⟨rest, hp⟩)
  | regWrite _ _ =>
    exact absurd (fun a => (memRead_congr (writeReg_cells _ _ _ sp) (writeReg_epoch _ _ _) a).trans
      (memRead_congr rfl rfl a)) hch
  | _ => exact absurd (memRead_congr rfl rfl) hch

/-- Settles O55: no command writes `SRC`, and the commands that write `DST` and `PAY` are those of `writtenSpace`. -/
theorem whoWritesEachSpace : Obligations.WhoWritesEachSpace := by
  intro s t h
  refine ⟨fun hch => ?_, fun hch => ?_, fun hch => ?_⟩ <;>
    rcases step_changes_space h hch with hport | hreset | ⟨c, hc, hw⟩
  · exact .inl hport
  · exact .inr hreset
  · cases c <;> cases hw
  · exact .inl hport
  · exact .inr (.inl hreset)
  · cases c with
    | bitPut b => exact .inr (.inr (.inl ⟨b, hc⟩))
    | gcopy => exact .inr (.inr (.inr (.inl hc)))
    | encode => exact .inr (.inr (.inr (.inr hc)))
    | _ => cases hw
  · exact .inl hport
  · exact .inr (.inl hreset)
  · cases c with
    | decode => exact .inr (.inr hc)
    | _ => cases hw

end Sys2Proof.Machine
end

section
/-! PROOFS. The memory port (`20_memory.md` R50, R52, R58): which accesses are transactions of the interface, and what
each one does. -/

namespace Sys2Proof.Machine

section
variable {s : State} {sp : Space} {id : BitVec 2} {a : Nat} {v : Byte} {k : Space → Outcome}
  {rest : List HostEvent}

/-- The id of a space names that space (R50). -/
@[simp] theorem ofId_id (sp : Space) : Space.ofId sp.id = some sp := by cases sp <;> rfl

/-- Id 3 names no space (R50, R77). -/
theorem ofId_three : Space.ofId 3 = none := rfl

/-- An access is a transaction of the interface where its id names a space and its address is inside it (R58). -/
theorem memPortOk_iff {d : DimBits} : memPortOk d id a = true ↔ ∃ sp, Space.ofId id = some sp ∧ a < sp.size d := by
  unfold memPortOk
  cases Space.ofId id <;> simp

/-- An access inside the space its id names is performed (R58). -/
theorem withMemPort_of_lt (hid : Space.ofId id = some sp) (ha : a < sp.size s.dimBits) :
    withMemPort id a s k = k sp := by
  simp only [withMemPort, hid, if_pos ha]

/-- An access past the end of the space its id names is refused (R58). -/
theorem withMemPort_of_le (hid : Space.ofId id = some sp) (ha : sp.size s.dimBits ≤ a) :
    withMemPort id a s k = .refused .addressOutsideSpace := by
  simp only [withMemPort, hid, if_neg (Nat.not_lt.2 ha)]

/-- An access with an id that names no space is refused (R58). -/
theorem withMemPort_of_no_space (hid : Space.ofId id = none) : withMemPort id a s k = .refused .noSuchSpace := by
  simp only [withMemPort, hid]

/-- A step on a pending `MWR` is the port's access with a write (R58). -/
theorem step_of_mwr (hp : s.pending = .mwr id a v :: rest) :
    step s = withMemPort id a { s with pending := rest } fun sp => .next (memWrite { s with pending := rest } sp a v) :=
  step_of_pending hp

/-- A step on a pending `MRD` is the port's access with a read, whose byte goes back to the host (R58). -/
theorem step_of_mrd (hp : s.pending = .mrd id a :: rest) :
    step s = withMemPort id a { s with pending := rest }
      fun sp => .next { s with pending := rest, reply := .byte (memRead { s with pending := rest } sp a) } :=
  step_of_pending hp

/-- A memory write changes the three memories alone. -/
theorem memWrite_frame (s : State) (sp : Space) (a : Nat) (v : Byte) :
    memWrite s sp a v = { s with
      src := (memWrite s sp a v).src, dst := (memWrite s sp a v).dst, pay := (memWrite s sp a v).pay } := by
  cases sp <;> rfl

/-- Reading memory ignores what is pending. -/
theorem memRead_with_pending (s : State) (es : List HostEvent) (sp : Space) (a : Nat) :
    memRead { s with pending := es } sp a = memRead s sp a := memRead_congr rfl rfl a

end

/-- Settles O9: a step on a memory-port event is `withMemPort`, which performs the access, finds the address outside
the space, or finds no space; what a performed write does to reads is `memRead_memWrite`. -/
theorem memoryPortMovesOneByte : Obligations.MemoryPortMovesOneByte := by
  intro s sp a v rest
  refine ⟨fun ha hp =>
      ⟨memWrite { s with pending := rest } sp a v, ?_, memRead_memWrite_same .., ?_, memWrite_frame ..⟩,
    fun ha hp => ?_, fun ha hp => ?_, fun ha hp => ?_, fun hp => ?_, fun hp => ?_⟩
  · exact (step_of_mwr hp).trans (withMemPort_of_lt (ofId_id sp) ha)
  · intro sp' a' hne
    rw [memRead_memWrite, if_neg hne, memRead_with_pending]
  · rw [← memRead_with_pending s rest sp a]
    exact (step_of_mrd hp).trans (withMemPort_of_lt (ofId_id sp) ha)
  · exact (step_of_mwr hp).trans (withMemPort_of_le (ofId_id sp) ha)
  · exact (step_of_mrd hp).trans (withMemPort_of_le (ofId_id sp) ha)
  · exact (step_of_mwr hp).trans (withMemPort_of_no_space ofId_three)
  · exact (step_of_mrd hp).trans (withMemPort_of_no_space ofId_three)

end Sys2Proof.Machine
end

section
/-! PROOFS. Every transaction of the interface runs to its end (`45_register_access.md` R178, `20_memory.md` R58) and
leaves the model's own fields to the host. -/

namespace Sys2Proof.Machine

section
variable (s : State)

@[simp] theorem writeReg_pending (rn : RegNum) (v : Word) : (writeReg s rn v).pending = s.pending := by
  rw [writeReg_frame]

theorem commandBody_pending (c : Command) : (commandBody c s).pending = s.pending := by
  cases c <;> simp [commandBody, encodeBody, decodeBody]

/-- Every command ends in a next state, with success or with an error, and keeps the model's own fields (R178). -/
theorem exec_toInstr_completes (c : Command) :
    ∃ t, exec c.toInstr s = .next t ∧ t.dimBits = s.dimBits ∧ t.epoch = s.epoch ∧ t.pending = s.pending := by
  rw [exec_toInstr]
  cases commandTest c s with
  | some f => exact ⟨_, raise_eq s f, by simp, by simp, by simp⟩
  | none => exact ⟨_, finish_eq _, (commandBody_geometry c s).2.2, commandBody_epoch c s, commandBody_pending s c⟩

/-- Every instruction ends in a next state and keeps the model's own fields: it is a command, the issue of a command
word, or a register transaction (R176 to R178). -/
theorem exec_completes (i : Instr) :
    ∃ t, exec i s = .next t ∧ t.dimBits = s.dimBits ∧ t.epoch = s.epoch ∧ t.pending = s.pending := by
  rcases instr_cases i with ⟨c, rfl⟩ | ⟨rn, v, rfl⟩ | ⟨rn, rfl⟩
  · exact exec_toInstr_completes s c
  · by_cases hrn : rn = 0x0F
    · subst hrn
      cases hv : decodeCommand v with
      | ok c => rw [exec_wr_cmd_of_legal hv]; exact exec_toInstr_completes s c
      | error e => exact ⟨_, exec_wr_cmd_of_illegal hv, rfl, rfl, rfl⟩
    · exact ⟨_, exec_wr_of_ne_cmd s rn v hrn, by simp, by simp, by simp⟩
  · exact ⟨_, rfl, rfl, rfl, rfl⟩

/-- A well-formed host event is not refused, and leaves the parameter and what is pending as they are. -/
theorem runEvent_completes {e : HostEvent} (h : e.wf s.dimBits = true) :
    ∃ t, runEvent e s = .next t ∧ t.dimBits = s.dimBits ∧ t.pending = s.pending := by
  cases e with
  | word tw =>
    show ∃ t, runWord tw s = _ ∧ _
    cases hd : decodeTx tw with
    | ok i =>
      obtain ⟨t, ht, hdim, -, hpend⟩ := exec_completes s i
      exact ⟨t, (runWord_of_decodes hd).trans ht, hdim, hpend⟩
    | error e => exact ⟨_, runWord_of_illegal hd, rfl, rfl⟩
  | mwr id a v =>
    obtain ⟨sp, hid, ha⟩ := memPortOk_iff.1 h
    exact ⟨_, withMemPort_of_lt hid ha, memWrite_dimBits .., memWrite_pending ..⟩
  | mrd id a =>
    obtain ⟨sp, hid, ha⟩ := memPortOk_iff.1 h
    exact ⟨_, withMemPort_of_lt hid ha, rfl, rfl⟩
  | reset => exact ⟨_, rfl, rfl, rfl⟩

end

/-- Settles O12: the first pending event completes, and neither `DIM_BITS`, which decides what is well formed, nor the
rest of the list changes. -/
theorem wellFormedEventsAlwaysStep : Obligations.WellFormedEventsAlwaysStep := by
  intro s hwf
  cases hp : s.pending with
  | nil => exact ⟨s, by simp only [step, hp, idle], hwf, hp⟩
  | cons e rest =>
    rw [hp] at hwf
    obtain ⟨he, hrest⟩ := List.forall_mem_cons.1 hwf
    obtain ⟨t, ht, hdim, hpend⟩ := runEvent_completes { s with pending := rest } he
    exact ⟨t, (step_of_pending hp).trans ht, by rw [hpend, hdim]; exact hrest, hpend⟩

end Sys2Proof.Machine
end

section
/-! PROOFS. The decoder and the encoder against each other (`30_encoding.md` R76 to R82): a command word is the number
of its three fields, and each field has one value that the decoder accepts for a command. -/

namespace Sys2Proof.Machine

section
variable {w x y : Word} {c : Command}

/-! ### command words -/

/-- A command word as the number of its fields (R78). -/
theorem toNat_eq_fields (w : Word) :
    w.toNat = (cmdReserved w).toNat * 2 ^ 9 + (cmdB w).toNat * 2 ^ 8 + (cmdOp w).toNat := by
  have hw := w.isLt
  rw [cmdB, ← BitVec.testBit_toNat, Nat.toNat_testBit]
  simp only [cmdReserved, cmdOp, BitVec.extractLsb'_toNat, Nat.shiftRight_eq_div_pow]
  omega

/-- Command words with the same fields are equal (R78). -/
theorem word_ext_fields (hres : cmdReserved x = cmdReserved y) (hb : cmdB x = cmdB y) (hop : cmdOp x = cmdOp y) :
    x = y := by
  apply BitVec.eq_of_toNat_eq
  rw [toNat_eq_fields x, toNat_eq_fields y, hres, hb, hop]

/-- A command without a field `b` is read exactly where bit 8 is 0 (R78, R81). -/
theorem withoutB_eq_ok_iff {b : Bool} {d : Command} : withoutB b d = .ok c ↔ b = false ∧ d = c := by
  cases b <;> simp [withoutB]

/-- A decoded command word has the fields of the command's encoding (R78 to R80). -/
theorem fields_of_decodeCommand (h : decodeCommand w = .ok c) :
    cmdReserved w = cmdReserved (encodeCommand c) ∧ cmdB w = cmdB (encodeCommand c) ∧
      cmdOp w = cmdOp (encodeCommand c) := by
  unfold decodeCommand at h
  split_ifs at h with hres
  rw [not_not.1 hres]
  split at h
  case h_4 hop =>
    cases h
    cases hb : cmdB w <;> exact ⟨rfl, rfl, BitVec.eq_of_toNat_eq hop⟩
  case h_9 => cases h
  all_goals
    rename_i hop
    obtain ⟨hb, rfl⟩ := withoutB_eq_ok_iff.1 h
    exact ⟨rfl, hb, BitVec.eq_of_toNat_eq hop⟩

/-- The encoding of a command decodes to it (R80). -/
theorem decodeCommand_encodeCommand (c : Command) : decodeCommand (encodeCommand c) = .ok c := by
  cases c with
  | bitPut b => cases b <;> rfl
  | _ => rfl

/-- A legal command word is the encoding of its command (R80, R82). -/
theorem decodeCommand_eq_ok_iff : decodeCommand w = .ok c ↔ w = encodeCommand c := by
  constructor
  · intro h
    obtain ⟨hres, hb, hop⟩ := fields_of_decodeCommand h
    exact word_ext_fields hres hb hop
  · rintro rfl
    exact decodeCommand_encodeCommand c

/-! ### mask and match -/

/-- The only bit a mask leaves out is bit 8, in the row of `BIT.PUT` (R79, R80). -/
theorem eq_bitPut_of_mask_bit_clear {i : Nat} (hi : i < 64) (h : c.mask.getLsbD i = false) :
    i = 8 ∧ ∃ b, c = .bitPut b := by
  cases c with
  | bitPut b =>
    have hmask : (Command.bitPut b).mask = ~~~BitVec.twoPow 64 8 := rfl
    have h8 : i = 8 := by simpa [hmask, BitVec.getLsbD_twoPow, hi] using h
    exact ⟨h8, b, rfl⟩
  | _ =>
    have hset : (BitVec.allOnes 64).getLsbD i = true := (BitVec.getLsbD_allOnes ..).trans (decide_eq_true hi)
    exact absurd (hset.symm.trans h) (by decide)

/-- The encoding of a command fits the command's row (R80). -/
theorem encodeCommand_and_mask (c : Command) : encodeCommand c &&& c.mask = c.pattern := by
  cases c with
  | bitPut b => cases b <;> rfl
  | _ => rfl

/-- Bit 8 of the encoding of `BIT.PUT b` is `b` (R79). -/
theorem encodeCommand_bitPut_bit (b : Bool) : (encodeCommand (.bitPut b)).getLsbD 8 = b := by cases b <;> rfl

/-- A word is determined by its bits under the mask of a row and, for `BIT.PUT`, by bit 8 (R80). -/
theorem eq_of_and_mask_eq (hmask : x &&& c.mask = y &&& c.mask)
    (hb : ∀ b, c = .bitPut b → x.getLsbD 8 = y.getLsbD 8) : x = y := by
  refine BitVec.eq_of_getLsbD_eq fun i hi => ?_
  cases hm : c.mask.getLsbD i with
  | false =>
    obtain ⟨rfl, b, hc⟩ := eq_bitPut_of_mask_bit_clear hi hm
    exact hb b hc
  | true => simpa [hm] using congrArg (BitVec.getLsbD · i) hmask

/-! ### transaction words -/

/-- A register-port word decodes by its kind (R76). -/
theorem decodePort_encodePort (k : Bool) (rn : RegNum) (v : Word) :
    decodePort (encodePort k rn v) = if k then .wr rn v else .rd rn := by
  simp [decodePort]

/-- A command is encoded by its command word (R83). -/
theorem encode_toInstr (c : Command) : encode c.toInstr = .cmd (encodeCommand c) := by cases c <;> rfl

/-- The encoding of an instruction decodes to it. -/
theorem decodeTx_encode (i : Instr) : decodeTx (encode i) = .ok i := by
  rcases instr_cases i with ⟨c, rfl⟩ | ⟨rn, v, rfl⟩ | ⟨rn, rfl⟩
  · rw [encode_toInstr, decodeTx, decodeCommand_encodeCommand]; rfl
  · exact congrArg Except.ok (decodePort_encodePort true rn v)
  · exact congrArg Except.ok (decodePort_encodePort false rn 0#64)

/-! ### fields of the register-port word -/

/-- Field `rn` as a number (R76). -/
theorem portReg_toNat (w : BitVec 73) : (portReg w).toNat = w.toNat / 2 ^ 64 % 2 ^ 8 := by
  rw [portReg, BitVec.extractLsb'_toNat, Nat.shiftRight_eq_div_pow]

/-- Field `v` as a number (R76). -/
theorem portVal_toNat (w : BitVec 73) : (portVal w).toNat = w.toNat % 2 ^ 64 := by
  rw [portVal, BitVec.extractLsb'_toNat, Nat.shiftRight_zero]

end

/-- Settles O1: by `decodeTx_encode`, and because the table's numbering gives the word back. -/
theorem encodedInstructionDecodesBack : Obligations.EncodedInstructionDecodesBack := fun i _ =>
  ⟨decodeTx_encode i, decodeTableWord_eq_some_iff.2 ⟨encode i, ofTable_toTable _, decodeTx_encode i⟩⟩

/-- Settles O2: the fields of a decoded word are those of its command's encoding, and they are the whole word. -/
theorem legalCommandWordIsItsEncoding : Obligations.LegalCommandWordIsItsEncoding := fun _ _ =>
  decodeCommand_eq_ok_iff

/-- Settles O3, from O2: the encoding fits its row, and mask, match and bit 8 leave no other word. -/
theorem maskAndMatchSelectTheCommand : Obligations.MaskAndMatchSelectTheCommand := by
  intro w c
  rw [decodeCommand_eq_ok_iff]
  constructor
  · rintro rfl
    refine ⟨encodeCommand_and_mask c, ?_⟩
    rintro b rfl
    exact encodeCommand_bitPut_bit b
  · rintro ⟨hmask, hb⟩
    refine eq_of_and_mask_eq (hmask.trans (encodeCommand_and_mask c).symm) ?_
    rintro b rfl
    rw [hb b rfl, encodeCommand_bitPut_bit]

/-- Settles O5: bit 72 chooses the transaction, whose fields are those of the word. -/
theorem portWordFields : Obligations.PortWordFields := fun w =>
  ⟨fun hk => ⟨portReg w, portVal w, if_pos hk, portReg_toNat w, portVal_toNat w⟩,
    fun hk => ⟨portReg w, if_neg (ne_of_eq_of_ne hk Bool.false_ne_true), portReg_toNat w⟩⟩

/-- Settles O6: the decoder evaluated on each word. -/
theorem specWordsDecode : Obligations.SpecWordsDecode := by
  unfold Obligations.SpecWordsDecode
  decide

end Sys2Proof.Machine
end

section
/-! PROOFS. Where the bits of a stream index lie (`40_cursor.md` R101, R107, `30_encoding.md` R73, R75): the byte
address is the index of the channel byte with one alpha byte skipped for every three, whatever the width. -/

namespace Sys2Proof.Machine

/-- The channel of an index has that index (R25). -/
theorem index_ofIndex {n : Nat} (h : n < 3) : (Channel.ofIndex n).index = n := by
  interval_cases n <;> rfl

/-- The byte of a stream index: row and column recombine, so the width cancels (R54, R101). -/
theorem addr_curMap (w l i : Nat) : (curMap w l i).addr w = 4 * (i / l / 3) + i / l % 3 := by
  have hpixel : i / l / 3 / w * w + i / l / 3 % w = i / l / 3 := Nat.div_add_mod' _ _
  rw [curMap_eq, Pos.addr, gridAddr, hpixel, index_ofIndex (Nat.mod_lt _ (by decide))]

/-- The bit position of a stream index (R101). -/
theorem sh_curMap (w l i : Nat) : (curMap w l i).sh = i % l := rfl

/-- Settles O23: the closed form gives back the index of the channel byte, the shift the rest of the index. -/
theorem indicesNameDistinctStorageBits : Obligations.IndicesNameDistinctStorageBits := by
  intro w l i j _ hl _
  simp only [addr_curMap, sh_curMap]
  refine ⟨fun haddr hsh => ?_, by omega, Nat.mod_lt i hl, by rw [Nat.mul_comm 3 l, Nat.div_div_eq_div_mul]⟩
  have hbyte : i / l = j / l := by omega
  calc i = l * (i / l) + i % l := (Nat.div_add_mod i l).symm
    _ = l * (j / l) + j % l := by rw [hbyte, hsh]
    _ = j := Nat.div_add_mod j l

/-- Settles O25: the closed form at depth 1, where an index is its own channel byte, and at depth 8, where eight
indices share one. -/
theorem layoutsAtDepthOneAndEight : Obligations.LayoutsAtDepthOneAndEight := by
  intro w _
  simp only [addr_curMap, sh_curMap]
  refine ⟨fun i => ⟨by rw [Nat.div_one], Nat.mod_one i⟩, fun m j hj => ?_⟩
  have hbyte : (8 * m + j) / 8 = m := by omega
  exact ⟨by rw [hbyte], by omega⟩

end Sys2Proof.Machine
end

section
/-! PROOFS. `DST2SRC` (`30_encoding.md` R84): a read of `DST` and a write of that byte to `SRC`, address after
address. -/

namespace Sys2Proof.Machine

open Sys2Proof.Claims

section
variable {s t : State} {sp : Space} {a : Nat}

/-- A `MRD` inside its space (R58). -/
theorem runEvent_mrd (ha : a < sp.size s.dimBits) :
    runEvent (.mrd sp.id a) s = .next { s with reply := .byte (memRead s sp a) } :=
  withMemPort_of_lt (ofId_id sp) ha

/-- A `MWR` inside its space (R58). -/
theorem runEvent_mwr (v : Byte) (ha : a < sp.size s.dimBits) :
    runEvent (.mwr sp.id a v) s = .next (memWrite s sp a v) :=
  withMemPort_of_lt (ofId_id sp) ha

/-- One round of `DST2SRC`: a byte read from `DST`, then one written to `SRC` at the same address (R84). -/
theorem runEvents_mrd_mwr (v : Byte) (ha : a < Space.src.size s.dimBits) :
    runEvents s [.mrd Space.dst.id a, .mwr Space.src.id a v] =
      .next (memWrite { s with reply := .byte (memRead s .dst a) } .src a v) := by
  have hdst : a < Space.dst.size s.dimBits := ha
  rw [runEvents_cons s _ (runEvent_mrd hdst)]
  exact runEvents_cons _ [] (runEvent_mwr v ha)

/-- A state in which the first `n` bytes of `DST` have been moved to `SRC` and nothing else has changed but the data
last returned. -/
structure Moved (s : State) (n : Nat) (t : State) : Prop where
  reads : ∀ a, memRead t .src a = if a < n then memRead s .dst a else memRead s .src a
  frame : t = { s with src := t.src, reply := t.reply }

/-- One byte more (R84). -/
theorem moved_succ {n : Nat} (h : Moved s n t) (r : Reply) :
    Moved s (n + 1) (memWrite { t with reply := r } .src n (memRead s .dst n)) where
  reads a := by
    have hreply : memRead { t with reply := r } .src a = memRead t .src a := memRead_congr rfl rfl a
    rw [memRead_memWrite, hreply, h.reads]
    by_cases ha : a = n
    · subst ha; simp
    · have hlt : a < n + 1 ↔ a < n := by omega
      simp [ha, hlt]
  frame := by rw [h.frame]; rfl

/-- `DST2SRC` on the first `n` addresses runs and moves them (R84). -/
theorem runEvents_dst2src {n : Nat} (hn : n ≤ Space.src.size s.dimBits) :
    ∃ t, runEvents s (dst2src s n) = .next t ∧ Moved s n t := by
  induction n with
  | zero => exact ⟨s, rfl, by simp, rfl⟩
  | succ n ih =>
    obtain ⟨t, hrun, hmoved⟩ := ih (by omega)
    have hdim : t.dimBits = s.dimBits := by rw [hmoved.frame]
    have hsrc : n < Space.src.size t.dimBits := by rw [hdim]; omega
    refine ⟨_, ?_, moved_succ hmoved (.byte (memRead t .dst n))⟩
    rw [dst2src, runEvents_append s _ _ hrun, runEvents_mrd_mwr _ hsrc]

end

/-- Settles O41: the grid's extent is inside both spaces, so every access of the sequence runs. -/
theorem dst2SrcMovesTheGrid : Obligations.Dst2SrcMovesTheGrid := by
  intro s hw hh
  obtain ⟨t, hrun, hmoved⟩ := runEvents_dst2src (gridBytes_le_size s hw hh)
  exact ⟨t, hrun, hmoved.reads, hmoved.frame⟩

end Sys2Proof.Machine
end

section
/-! PROOFS. The stream and its assembly (`30_encoding.md` R71, R72, R74): the bits of a number assembled, least
significant first, are that number. -/

namespace Sys2Proof.Machine

section
variable {g : Nat → Bool}

/-- Assembling the low bits of a number gives the number modulo a power of two (R74). -/
theorem assemble_eq_mod {st x n : Nat} (h : ∀ j < n, g (st + j) = x.testBit j) : assemble g st n = x % 2 ^ n := by
  induction n with
  | zero => simp [assemble, Nat.mod_one]
  | succ n ih =>
    rw [assemble, ih fun j hj => h j (Nat.lt_succ_of_lt hj), h n (Nat.lt_succ_self n), Nat.toNat_testBit,
      Nat.mod_pow_succ]

variable (n : Nat) (pay : Nat → Byte)

/-- The first 32 bits of the stream are those of the length (R71, R72). -/
theorem streamBit_header {i : Nat} (hi : i < headerBits) : Machine.streamBit n pay i = n.testBit i := if_pos hi

/-- After the header, eight bits for each byte, least significant first (R72). -/
theorem streamBit_payload (k : Nat) {j : Nat} (hj : j < byteBits) :
    Machine.streamBit n pay (headerBits + byteBits * k + j) = (pay k).toNat.testBit j := by
  simp only [headerBits, byteBits] at *
  have hlate : ¬32 + 8 * k + j < 32 := by omega
  have hbyte : (32 + 8 * k + j - 32) / 8 = k := by omega
  have hbit : (32 + 8 * k + j - 32) % 8 = j := by omega
  rw [Machine.streamBit, if_neg hlate, hbyte, hbit, BitVec.testBit_toNat]
  rfl

end

/-- Settles O47: header and bytes are assembled from the bits they were emitted as. -/
theorem streamReadsBack : Obligations.StreamReadsBack := by
  intro n pay hn
  constructor
  · have hbits : ∀ j < headerBits, Machine.streamBit n pay (0 + j) = n.testBit j := fun j hj => by
      rw [Nat.zero_add]; exact streamBit_header n pay hj
    exact (assemble_eq_mod hbits).trans (Nat.mod_eq_of_lt hn)
  · intro k
    apply BitVec.eq_of_toNat_eq
    rw [payloadByte, assemble_eq_mod fun j hj => streamBit_payload n pay k hj, BitVec.toNat_ofNat, Nat.mod_mod]
    exact Nat.mod_eq_of_lt (pay k).isLt

end Sys2Proof.Machine
end

section
/-! PROOFS. The cursor map against the index (`40_cursor.md` R104, R107, R108): `CurIdx` has the shift, the channel,
the column and the row as the digits of the index, and `CurMap` takes those digits apart. -/

namespace Sys2Proof.Machine

section
variable {w l : Nat} {p : Pos}

/-- `i` advances from the origin reach the position of index `i` (R104). -/
theorem iterate_curAdv_origin (hw : 1 ≤ w) (hl : 1 ≤ l) (i : Nat) : (curAdv w l)^[i] Pos.origin = curMap w l i := by
  induction i with
  | zero => exact (curMap_zero w l).symm
  | succ i ih => rw [Function.iterate_succ_apply', ih, curAdv_curMap hw hl]

/-- The channel index names the channel (R25). -/
theorem ofIndex_index (ch : Channel) : Channel.ofIndex ch.index = ch := by cases ch <;> rfl

/-- The last digit of a number and what stands before it. -/
theorem mul_add_div_mod {q r b : Nat} (hr : r < b) : (q * b + r) / b = q ∧ (q * b + r) % b = r :=
  (Nat.div_mod_unique (by omega)).2 ⟨by rw [Nat.mul_comm, Nat.add_comm], hr⟩

/-- The digits of an index put together again are the index (R107). -/
theorem curIdx_curMap (w l i : Nat) : curIdx w l (curMap w l i) = i := by
  rw [curMap_eq]
  calc ((i / l / 3 / w * w + i / l / 3 % w) * 3 + (Channel.ofIndex (i / l % 3)).index) * l + i % l
    _ = (i / l / 3 * 3 + i / l % 3) * l + i % l := by
      rw [Nat.div_add_mod', index_ofIndex (Nat.mod_lt _ (by decide))]
    _ = i := by rw [Nat.div_add_mod', Nat.div_add_mod']

/-- A position in range is that of its index (R107). -/
theorem curMap_curIdx (hx : p.x < w) (hsh : p.sh < l) : curMap w l (curIdx w l p) = p := by
  obtain ⟨hbyte, hshift⟩ := mul_add_div_mod (q := (p.y * w + p.x) * 3 + p.ch.index) hsh
  obtain ⟨hpixel, hch⟩ := mul_add_div_mod (q := p.y * w + p.x) p.ch.index_lt
  obtain ⟨hrow, hcol⟩ := mul_add_div_mod (q := p.y) hx
  rw [curMap_eq]
  simp only [curIdx, hbyte, hshift, hpixel, hch, hrow, hcol, ofIndex_index]

/-- The row of an index is the number of whole rows of `3 * l * w` indices before it (R101). -/
theorem curMap_y (w l i : Nat) : (curMap w l i).y = i / (l * 3 * w) := Nat.div_div_eq_div_mul ..

end

/-- Settles O21: one step is `curAdv_curMap`, and the steps from the origin are its iteration. -/
theorem advanceAgreesWithClosedForm : Obligations.AdvanceAgreesWithClosedForm := fun w l i hw hl _ =>
  ⟨curAdv_curMap hw hl i, curMap_zero w l, iterate_curAdv_origin hw hl i⟩

/-- Settles O22: `curIdx_curMap` and `curMap_curIdx`, the first of which leaves no second index. -/
theorem curMapAndCurIdxAreInverse : Obligations.CurMapAndCurIdxAreInverse := by
  intro w l hw hl _
  refine ⟨fun i => ⟨curIdx_curMap w l i, Nat.mod_lt _ hw, Nat.le_of_lt_succ (Channel.index_lt _), Nat.mod_lt i hl⟩,
    fun p hx hsh => ⟨rfl, curMap_curIdx hx hsh, ?_⟩⟩
  rintro i rfl
  exact (curIdx_curMap w l i).symm

/-- Settles O24: a row holds `3 * l * w` indices, so `h` rows hold `Total`. -/
theorem rowBelowHeightIffIndexBelowTotal : Obligations.RowBelowHeightIffIndexBelowTotal := by
  intro w h l i hw hl _
  have htotal : w * h * 3 * l = h * (l * 3 * w) := by ring
  rw [curMap_y, htotal]
  exact Nat.div_lt_iff_lt_mul (by positivity)

end Sys2Proof.Machine
end

section
/-! PROOFS. `CUR.SEEK` and `CUR.ADV` (`40_cursor.md` R102, R105, R106): when each of their tests fails, what the two
bodies share, and the bound of `IDX`. -/

namespace Sys2Proof.Machine

open Sys2Proof.Claims

section
variable {s t : State} {c : Command}

/-! ### the tests and their outcomes -/

/-- `CUR.SEEK` passes its test over legal operands alone (R102). -/
theorem commandTest_curSeek_eq_none_iff :
    commandTest .curSeek s = none ↔ s.LsbOk ∧ s.WOk ∧ s.WPos ∧ s.ArgOk := by
  simp only [commandTest, ite_eq_right_iff, reduceCtorEq, imp_false, not_not]

/-- `CUR.ADV` passes its tests over a legal geometry, short of the last index, alone (R105, R106). -/
theorem commandTest_curAdv_eq_none_iff :
    commandTest .curAdv s = none ↔ s.GeomOk ∧ s.idx.toNat ≠ s.dimBits.idxLimit - 1 := by
  simp only [commandTest]
  split_ifs with hg hi
  · exact ⟨nofun, fun h => absurd hi h.2⟩
  · exact ⟨fun _ => ⟨hg, hi⟩, fun _ => rfl⟩
  · exact ⟨nofun, fun h => absurd h.1 hg⟩

/-- A command whose tests pass ends with its body (R178). -/
theorem exec_toInstr_of_passes (h : commandTest c s = none) :
    exec c.toInstr s = .next ((commandBody c s).setErr .ok) := by
  rw [exec_toInstr, h]; rfl

/-- `CUR.SEEK` with an illegal operand changes `STATUS` alone (R102). -/
theorem exec_curSeek_of_illegal (h : ¬(s.LsbOk ∧ s.WOk ∧ s.WPos ∧ s.ArgOk)) :
    exec .curSeek s = .next { s with err := .invalidParameter } := if_pos h

/-- `CUR.ADV` with an illegal operand changes `STATUS` alone (R105). -/
theorem exec_curAdv_of_illegal (h : ¬s.GeomOk) : exec .curAdv s = .next { s with err := .invalidParameter } :=
  if_pos h

/-- `CUR.ADV` at the last index changes `STATUS` alone (R106). -/
theorem exec_curAdv_of_last (hg : s.GeomOk) (hi : s.idx.toNat = s.dimBits.idxLimit - 1) :
    exec .curAdv s = .next { s with err := .outOfGrid } :=
  (if_neg (not_not.2 hg)).trans (if_pos hi)

/-! ### the bodies -/

/-- A move of the cursor that ends a command leaves everything but the cursor and `STATUS` alone. -/
theorem setCursor_setErr_frame (s : State) (v : Word) (p : Pos) (k : ErrorKind) :
    SameOperands s ((s.setCursor v p).setErr k) ∧ ((s.setCursor v p).setErr k).bitv = s.bitv ∧
      SameErrorInfo s ((s.setCursor v p).setErr k) ∧ SameModelFields s ((s.setCursor v p).setErr k) ∧
      SameMemory s ((s.setCursor v p).setErr k) :=
  ⟨⟨rfl, rfl, rfl, rfl, rfl⟩, rfl, ⟨rfl, rfl, rfl⟩, ⟨rfl, rfl, rfl, rfl⟩,
    fun sp a => memRead_congr (by cases sp <;> rfl) rfl a⟩

/-- A 64-bit register one higher, as the register keeps it. -/
theorem ofNat_toNat_succ (v : Word) : BitVec.ofNat 64 (v.toNat + 1) = v + 1 := by
  rw [BitVec.ofNat_add, BitVec.ofNat_toNat, BitVec.setWidth_eq]; rfl

/-- Below the index bound the next index is held whole (R7). -/
theorem idx_succ_toNat {d : DimBits} {v : Word} (h : v.toNat + 1 < d.idxLimit) : (v + 1).toNat = v.toNat + 1 := by
  have hlim := idxLimit_le d
  rw [BitVec.toNat_add]
  exact Nat.mod_eq_of_lt (by simp; omega)

/-! ### the bound of `IDX` -/

/-- A body whose tests have passed keeps the index below its bound (R106). -/
theorem commandBody_idx_lt (hi : s.idx.toNat < s.dimBits.idxLimit) (h : commandTest c s = none) :
    (commandBody c s).idx.toNat < s.dimBits.idxLimit := by
  cases c with
  | curSeek =>
    obtain ⟨-, -, -, harg⟩ := commandTest_curSeek_eq_none_iff.1 h
    exact harg
  | curAdv =>
    obtain ⟨-, hlast⟩ := commandTest_curAdv_eq_none_iff.1 h
    have hnext : s.idx.toNat + 1 < s.dimBits.idxLimit := by omega
    exact (idx_succ_toNat hnext).trans_lt hnext
  | _ => rw [(commandBody_sameCursor (by simp) (by simp)).1]; exact hi

/-- A command keeps the index below its bound. -/
theorem exec_toInstr_idx_lt (hi : s.idx.toNat < s.dimBits.idxLimit) (h : exec c.toInstr s = .next t) :
    t.idx.toNat < s.dimBits.idxLimit := by
  rcases exec_toInstr_cases h with ⟨f, -, rfl⟩ | ⟨hpass, rfl⟩
  · simpa using hi
  · exact commandBody_idx_lt hi hpass

/-- A register write leaves the index alone or makes it 0 (R23). -/
theorem writeReg_idx (s : State) (rn : RegNum) (v : Word) :
    (writeReg s rn v).idx = s.idx ∨ (writeReg s rn v).idx = 0 := by
  rcases writeReg_cases s rn v with ⟨-, h⟩ | ⟨-, h⟩ | ⟨-, h⟩ | ⟨-, h⟩ | ⟨-, h⟩ | ⟨-, h⟩ <;> simp [h]

/-- Every instruction keeps the index below its bound: it has one of the effects of a transaction word. -/
theorem exec_idx_lt {i : Instr} (hi : s.idx.toNat < s.dimBits.idxLimit) (h : exec i s = .next t) :
    t.idx.toNat < s.dimBits.idxLimit := by
  cases eventEffect_of_word ((runWord_of_decodes (decodeTx_encode i)).trans h) with
  | command _ _ hrun => exact exec_toInstr_idx_lt hi hrun
  | regWrite _ _ =>
    rcases writeReg_idx s _ _ with e | e <;> rw [e]
    · exact hi
    · exact Nat.two_pow_pos _
  | _ => exact hi

end

/-- Settles O17: the test decides, and the cursor registers hold the closed form whole. -/
theorem curSeekPutsCursorAtClosedForm : Obligations.CurSeekPutsCursorAtClosedForm := by
  refine ⟨decodeCommand_encodeCommand .curSeek, fun s => ⟨exec_curSeek_of_illegal, fun hl hw hw0 ha => ?_⟩⟩
  have hpos := setCursor_curMap_pos s s.arg (w := s.w.toNat) (l := s.lsb.toNat) s.arg.isLt
  have hch : (curMap s.w.toNat s.lsb.toNat s.arg.toNat).ch.index = s.arg.toNat / s.lsb.toNat % 3 :=
    index_ofIndex (Nat.mod_lt _ (by decide))
  exact ⟨_, exec_toInstr_of_passes (commandTest_curSeek_eq_none_iff.2 ⟨hl, hw, hw0, ha⟩), rfl, rfl,
    congrArg Pos.sh hpos, hch, congrArg Pos.x hpos, congrArg Pos.y hpos, setCursor_setErr_frame ..⟩

/-- Settles O18: the tests decide, and the carries are the cases of `CurAdv`. -/
theorem curAdvCarriesShiftChannelColumnRow : Obligations.CurAdvCarriesShiftChannelColumnRow := by
  refine ⟨decodeCommand_encodeCommand .curAdv, fun s => ⟨exec_curAdv_of_illegal,
    fun hl hw hw0 hi => exec_curAdv_of_last ⟨hl, hw, hw0⟩ hi, fun hl hw hw0 hi => ?_⟩⟩
  refine ⟨_, exec_toInstr_of_passes (commandTest_curAdv_eq_none_iff.2 ⟨⟨hl, hw, hw0⟩, hi⟩), rfl, rfl, ?_,
    setCursor_setErr_frame ..⟩
  by_cases hsh : s.cursh.toNat + 1 < s.lsb.toNat
  · simp [commandBody, curAdv, State.pos, hsh, ofNat_toNat_succ]
  · cases hch : s.curch with
    | red => simp [commandBody, curAdv, State.pos, hsh, hch]
    | green => simp [commandBody, curAdv, State.pos, hsh, hch]
    | blue =>
      by_cases hx : s.curx.toNat + 1 < s.w.toNat
      · simp [commandBody, curAdv, nextPixel, State.pos, hsh, hch, hx, ofNat_toNat_succ]
      · simp [commandBody, curAdv, nextPixel, State.pos, hsh, hch, hx, ofNat_toNat_succ]

/-- Settles O19: the body is a move to the closed form of the next index. -/
theorem curAdvTracksClosedForm : Obligations.CurAdvTracksClosedForm := by
  intro s hc hl hw hw0 hi
  have hsucc : (s.idx + 1).toNat = s.idx.toNat + 1 := idx_succ_toNat hi
  have hlast : s.idx.toNat ≠ s.dimBits.idxLimit - 1 := (Nat.lt_sub_of_add_lt hi).ne
  refine ⟨_, exec_toInstr_of_passes (commandTest_curAdv_eq_none_iff.2 ⟨⟨hl, hw, hw0⟩, hlast⟩), rfl, hsucc, ?_⟩
  rw [commandBody_curAdv hc ⟨hl, hw, hw0⟩ hsucc, ← hsucc]
  exact setCursor_curMap_pos s (s.idx + 1) (s.idx + 1).isLt

/-- Settles O20: every instruction keeps the bound, the two commands refuse to leave it, and `Total` is below it. -/
theorem indexStaysBelowItsBound : Obligations.IndexStaysBelowItsBound := by
  refine ⟨fun s t i hi h => ?_, fun s _ _ _ harg => ?_, fun s hl hw hw0 hi => ?_, total_lt_idxLimit⟩
  · exact Nat.le_sub_one_of_lt (exec_idx_lt (Nat.lt_of_le_sub_one (Nat.two_pow_pos _) hi) h)
  · exact exec_curSeek_of_illegal fun ⟨_, _, _, ha⟩ => Nat.not_lt.2 harg ha
  · exact exec_curAdv_of_last ⟨hl, hw, hw0⟩ hi

end Sys2Proof.Machine
end

section
/-! PROOFS. `BIT.GET`, `BIT.PUT` and `GCOPY` (`41_grid_bit_access.md` R121 to R125): the shared test, the frame of the
commands that write `DST`, and the one bit that a bit write can change. -/

namespace Sys2Proof.Machine

open Sys2Proof.Claims

section
variable {s t : State} {c : Command} {f : Failure}

/-! ### the tests and their outcomes -/

/-- A command with a test that fails raises that failure (R187). -/
theorem exec_toInstr_of_fails (h : commandTest c s = some f) : exec c.toInstr s = raise f s := by
  rw [exec_toInstr, h]; rfl

/-- No command fails with the code of success (R186). -/
theorem FailsWith.kind_ne_ok (h : FailsWith s f) : f.kind ≠ .ok := by
  cases h <;> exact nofun

/-- A command that ends with `STATUS` OK has passed its tests and done its body (R178). -/
theorem exec_toInstr_ok (h : exec c.toInstr s = .next t) (hok : t.err = .ok) :
    commandTest c s = none ∧ t = (commandBody c s).setErr .ok := by
  rcases exec_toInstr_cases h with ⟨f, hf, rfl⟩ | hdone
  · exact absurd hok (failsWith_of_commandTest hf).kind_ne_ok
  · exact hdone

/-- A bit access tests its operands first (R121, R122). -/
theorem bitAccessTest_of_illegal (h : ¬(s.LsbOk ∧ s.WOk ∧ s.WPos ∧ s.HOk)) :
    bitAccessTest s = some invalidParameter := if_pos h

/-- Over legal operands a bit access tests the row (R123). -/
theorem bitAccessTest_of_outside (hl : s.LsbOk) (hw : s.WOk) (hw0 : s.WPos) (hh : s.HOk)
    (hy : s.h.toNat ≤ s.cury.toNat) : bitAccessTest s = some outOfGrid :=
  (if_neg (not_not.2 ⟨hl, hw, hw0, hh⟩)).trans (if_pos hy)

/-- A bit access inside the grid over legal operands passes its test (R121, R122). -/
theorem bitAccessTest_of_inside (hl : s.LsbOk) (hw : s.WOk) (hw0 : s.WPos) (hh : s.HOk)
    (hy : s.cury.toNat < s.h.toNat) : bitAccessTest s = none :=
  (if_neg (not_not.2 ⟨hl, hw, hw0, hh⟩)).trans (if_neg (Nat.not_le.2 hy))

/-- The test of `CHKCAP` and `ENCODE` does not look at the cursor's row (R123). -/
theorem capacityTest_kind_ne_outOfGrid (h : capacityTest s = some f) : f.kind ≠ .outOfGrid := by
  rcases capacityTest_cases s with ⟨-, e⟩ | ⟨-, -, e⟩ | ⟨-, -, e⟩ <;> cases e.symm.trans h <;> exact nofun

/-- The tests of `DECODE` do not look at the cursor's row (R123). -/
theorem decodeTest_kind_ne_outOfGrid (h : decodeTest s = some f) : f.kind ≠ .outOfGrid := by
  rcases decodeTest_cases s with ⟨-, e⟩ | ⟨-, -, e⟩ | ⟨-, -, -, e⟩ | ⟨-, -, -, e⟩ <;> cases e.symm.trans h <;>
    exact nofun

/-- A command none of whose tests fails with `OutOfGrid` does not end with it. -/
theorem exec_toInstr_err_ne_outOfGrid (h : exec c.toInstr s = .next t)
    (htest : ∀ f, commandTest c s = some f → f.kind ≠ .outOfGrid) : t.err ≠ .outOfGrid := by
  rcases exec_toInstr_cases h with ⟨f, hf, rfl⟩ | ⟨-, rfl⟩
  · exact htest f hf
  · exact nofun

/-! ### the commands that write `DST` -/

/-- The body of a command that writes `DST` changes nothing else (R32). -/
theorem commandBody_eq_with_dst (hc : writtenSpace c = some .dst) :
    commandBody c s = { s with dst := (commandBody c s).dst } := by
  cases c with
  | bitPut b => rfl
  | gcopy =>
    obtain ⟨m, hm⟩ := copyBytes_eq s s.gridBytes
    show copyBytes s s.gridBytes = { s with dst := (copyBytes s s.gridBytes).dst }
    rw [hm]
  | encode =>
    obtain ⟨m, hm⟩ := encodeBody_eq s
    show encodeBody s = { s with dst := (encodeBody s).dst }
    rw [hm]
  | _ => cases hc

/-- A command that writes `DST` and whose tests pass changes `STATUS` and `DST` alone, and `DST` reads as its body
left it. -/
theorem exec_dst_of_passes (hc : writtenSpace c = some .dst) (h : commandTest c s = none) :
    ∃ t, exec c.toInstr s = .next t ∧ t = { s with err := .ok, dst := t.dst } ∧
      SameSpace .src s t ∧ SameSpace .pay s t ∧ ∀ a, memRead t .dst a = memRead (commandBody c s) .dst a := by
  have hrun := exec_toInstr_of_passes h
  refine ⟨_, hrun, ?_, exec_sameSpace hrun ?_, exec_sameSpace hrun ?_, fun a => memRead_setErr ..⟩
  · exact congrArg (State.setErr · .ok) (commandBody_eq_with_dst hc)
  · simp [hc]
  · simp [hc]

/-! ### the bit at the cursor -/

/-- `SetBit` on the bits a byte has, whatever the bit number: one past the byte sets nothing (log entry 10). -/
theorem bitOf_setBit_of_lt (v : Byte) (k : Nat) (b : Bool) {j : Nat} (hj : j < 8) :
    bitOf (setBit v k b) j = if j = k then b else bitOf v j := by
  by_cases hk : k < 8
  · exact bitOf_setBit k v b hk j
  · have hnone : 1#8 <<< k = 0#8 := BitVec.shiftLeft_eq_zero (Nat.le_of_not_lt hk)
    have hsame : setBit v k b = v := by
      cases b with
      | true => simp [setBit, hnone]
      | false => rw [setBit, hnone]; exact BitVec.and_allOnes
    rw [hsame, if_neg (by omega)]

/-- A bit write at the cursor, bit by bit: the bit at the cursor's byte and shift is the one written, every other bit
of `DST` is as before (R122, R125). -/
theorem getLsbD_memRead_putBit_cursor (s : State) (b : Bool) (a : Nat) {k : Nat} (hk : k < 8) :
    (memRead (putBit s s.w.toNat s.pos b) .dst a).getLsbD k =
      if a = cursorAddr s ∧ k = s.cursh.toNat then b else (memRead s .dst a).getLsbD k := by
  by_cases ha : a = cursorAddr s
  · subst ha
    have hbyte : memRead (putBit s s.w.toNat s.pos b) .dst (cursorAddr s) =
        setBit (memRead s .dst (cursorAddr s)) s.cursh.toNat b := memRead_memWrite_same ..
    rw [hbyte]
    exact (bitOf_setBit_of_lt _ _ b hk).trans (if_congr (and_iff_right rfl).symm rfl rfl)
  · rw [memRead_putBit_of_ne s .dst a s.w.toNat b s.pos fun h => ha h.2, if_neg fun h => ha h.1]

/-- Over a legal geometry the cursor's shift is below the depth (R26). -/
theorem pos_sh_lt (hs : CursorInv s) (hg : s.GeomOk) : s.pos.sh < s.lsb.toNat := by
  obtain ⟨-, hpos, -⟩ := hs
  rw [hpos hg]
  exact Nat.mod_lt _ hg.1.1

/-- The cursor's byte is no alpha byte, because no channel of the cursor has index 3 (R73). -/
theorem cursorAddr_mod_four_ne (s : State) : cursorAddr s % 4 ≠ 3 := by
  have hch := s.curch.index_lt
  rw [Nat.mul_add_mod, Nat.mod_eq_of_lt (by omega)]
  exact hch.ne

end

/-- Settles O27: the three outcomes of the test, the last followed by the body. -/
theorem bitGetReadsSourceBitAtCursor : Obligations.BitGetReadsSourceBitAtCursor :=
  ⟨decodeCommand_encodeCommand .bitGet, fun _ =>
    ⟨fun h => exec_toInstr_of_fails (c := .bitGet) (bitAccessTest_of_illegal h),
      fun hl hw hw0 hh hy => exec_toInstr_of_fails (c := .bitGet) (bitAccessTest_of_outside hl hw hw0 hh hy),
      fun hl hw hw0 hh hy => exec_toInstr_of_passes (c := .bitGet) (bitAccessTest_of_inside hl hw hw0 hh hy)⟩⟩

/-- Settles O28: the three outcomes of the test, the last with the frame of a command that writes `DST` and the bits
of `getLsbD_memRead_putBit_cursor`. -/
theorem bitPutWritesOneBitAtCursor : Obligations.BitPutWritesOneBitAtCursor := by
  refine ⟨decodeCommand_encodeCommand (.bitPut false), decodeCommand_encodeCommand (.bitPut true), fun s b =>
    ⟨fun h => exec_toInstr_of_fails (c := .bitPut b) (bitAccessTest_of_illegal h),
      fun hl hw hw0 hh hy => exec_toInstr_of_fails (c := .bitPut b) (bitAccessTest_of_outside hl hw hw0 hh hy),
      fun hl hw hw0 hh hy => ?_⟩⟩
  obtain ⟨t, hrun, hframe, hsrc, hpay, hdst⟩ :=
    exec_dst_of_passes (c := .bitPut b) rfl (bitAccessTest_of_inside hl hw hw0 hh hy)
  refine ⟨t, hrun, hframe, hsrc, hpay, fun a ha => ?_, fun k hk => ?_⟩
  · exact (hdst a).trans (memRead_putBit_of_ne s .dst a s.w.toNat b s.pos fun h => ha h.2)
  · rw [hdst]
    exact (getLsbD_memRead_putBit_cursor s b (cursorAddr s) hk).trans (if_congr (and_iff_right rfl) rfl rfl)

/-- Settles O29: the cursor is at no alpha byte and its shift is below the depth, so the bit that is written is none of
those named. -/
theorem bitPutKeepsAlphaAndHighBits : Obligations.BitPutKeepsAlphaAndHighBits := by
  intro s t b hcur h hok
  obtain ⟨htest, rfl⟩ := exec_toInstr_ok (c := .bitPut b) h hok
  obtain ⟨⟨hl, hw, hw0, -⟩, -⟩ := bitAccessTest_eq_none htest
  have hbits : ∀ a k, k < 8 → (memRead ((commandBody (.bitPut b) s).setErr .ok) .dst a).getLsbD k =
      if a = cursorAddr s ∧ k = s.cursh.toNat then b else (memRead s .dst a).getLsbD k := fun a k hk => by
    rw [memRead_setErr]; exact getLsbD_memRead_putBit_cursor s b a hk
  refine ⟨hbits, fun a k hak => ?_⟩
  by_cases hk : k < 8
  · have hsh : s.cursh.toNat < s.lsb.toNat := pos_sh_lt hcur ⟨hl, hw, hw0⟩
    have halpha := cursorAddr_mod_four_ne s
    rw [hbits a k hk, if_neg]
    rintro ⟨rfl, rfl⟩
    exact hak.elim halpha (Nat.not_le.2 hsh)
  · have hge : 8 ≤ k := Nat.le_of_not_lt hk
    rw [BitVec.getLsbD_of_ge _ _ hge, BitVec.getLsbD_of_ge _ _ hge]

/-- Settles O30: the test finds the row, the cursor invariant bounds the rest of the position, and the codec's tests
have other failures. -/
theorem bitAccessPastLastRow : Obligations.BitAccessPastLastRow := by
  refine ⟨fun s b hl hw hw0 hh hy => ?_, fun s hcur hl hw hw0 => ?_, fun s t h => ?_⟩
  · have htest := bitAccessTest_of_outside hl hw hw0 hh hy
    exact ⟨exec_toInstr_of_fails (c := .bitGet) htest, exec_toInstr_of_fails (c := .bitPut b) htest⟩
  · exact ⟨pos_x_lt hcur ⟨hl, hw, hw0⟩, Nat.le_of_lt_succ s.curch.index_lt, pos_sh_lt hcur ⟨hl, hw, hw0⟩⟩
  · rcases h with h | h
    · exact exec_toInstr_err_ne_outOfGrid (c := .encode) h fun _ => capacityTest_kind_ne_outOfGrid
    · exact exec_toInstr_err_ne_outOfGrid (c := .decode) h fun _ => decodeTest_kind_ne_outOfGrid

/-- Settles O31: the test decides, with the frame of a command that writes `DST` and the bytes of
`memRead_copyBytes`. -/
theorem gcopyCopiesTheGrid : Obligations.GcopyCopiesTheGrid := by
  refine ⟨decodeCommand_encodeCommand .gcopy, fun s =>
    ⟨fun h => exec_toInstr_of_fails (c := .gcopy) (if_pos h), fun hw hh => ?_⟩⟩
  obtain ⟨t, hrun, hframe, hsrc, hpay, hdst⟩ :=
    exec_dst_of_passes (c := .gcopy) (s := s) rfl (if_neg (not_not.2 ⟨hw, hh⟩))
  refine ⟨t, hrun, hframe, hsrc, hpay, fun a => (hdst a).trans ?_⟩
  exact (memRead_copyBytes s .dst a s.gridBytes).trans (if_congr (and_iff_right rfl) rfl rfl)

end Sys2Proof.Machine
end

section
/-! PROOFS. `CHKCAP` (`42_capacity.md` R137 to R139): the capacity test by its three outcomes, and what the test looks
at. -/

namespace Sys2Proof.Machine

open Sys2Proof.Claims

section
variable {s t : State}

/-! ### the capacity test -/

/-- The capacity test looks at the operands first (R137). -/
theorem capacityTest_of_illegal (h : ¬(s.LsbOk ∧ s.WOk ∧ s.HOk ∧ s.LenOk)) :
    capacityTest s = some invalidParameter := if_pos h

/-- Over legal operands a stream longer than `Total` does not fit (R137). -/
theorem capacityTest_of_over (hl : s.LsbOk) (hw : s.WOk) (hh : s.HOk) (hn : s.LenOk)
    (hover : s.total < streamLen s.plen.toNat) :
    capacityTest s = some ⟨.capacityExceeded, some ⟨s.availBytes, s.plen, s.lsb⟩⟩ :=
  (if_neg (not_not.2 ⟨hl, hw, hh, hn⟩)).trans (if_pos hover)

/-- Over legal operands a stream no longer than `Total` passes the test (R137). -/
theorem capacityTest_of_fits (hl : s.LsbOk) (hw : s.WOk) (hh : s.HOk) (hn : s.LenOk)
    (hfits : streamLen s.plen.toNat ≤ s.total) : capacityTest s = none :=
  (if_neg (not_not.2 ⟨hl, hw, hh, hn⟩)).trans (if_neg (Nat.not_lt.2 hfits))

/-- The capacity test is a function of `W`, `H`, `LSB` and `PLEN` under one `DIM_BITS` (R139). -/
theorem capacityTest_congr (hd : t.dimBits = s.dimBits) (hw : t.w = s.w) (hh : t.h = s.h) (hl : t.lsb = s.lsb)
    (hp : t.plen = s.plen) : capacityTest t = capacityTest s := by
  cases s; cases t
  cases hd; cases hw; cases hh; cases hl; cases hp
  rfl

/-- Recording an outcome does not change that of the capacity test (R139). -/
theorem capacityTest_recordInfo_setErr (s : State) (e : Option ErrorInfo) (k : ErrorKind) :
    capacityTest ((s.recordInfo e).setErr k) = capacityTest s := by
  apply capacityTest_congr <;> simp

/-! ### outcomes -/

/-- Recording the same outcome twice is recording it once. -/
theorem recordInfo_setErr_idem (s : State) (e : Option ErrorInfo) (k : ErrorKind) :
    (((s.recordInfo e).setErr k).recordInfo e).setErr k = (s.recordInfo e).setErr k := by
  cases e <;> rfl

/-- The code a command ends with is that of its test (R178, R187). -/
theorem exec_toInstr_err {c : Command} {o : Option Failure} (h : exec c.toInstr s = .next t)
    (ho : commandTest c s = o) : t.err = o.elim .ok Failure.kind := by
  subst ho
  rcases exec_toInstr_cases h with ⟨f, hf, rfl⟩ | ⟨hn, rfl⟩
  · rw [hf]; rfl
  · rw [hn]; rfl

/-- Everything `CHKCAP` can do (R137): it changes `STATUS`, and records values with `CapacityExceeded` only. -/
theorem exec_chkcap_cases (h : exec .chkcap s = .next t) :
    t = s.setErr .invalidParameter ∨
    t = (s.recordInfo (some ⟨s.availBytes, s.plen, s.lsb⟩)).setErr .capacityExceeded ∨
    t = s.setErr .ok := by
  rcases capacityTest_cases s with ⟨-, e⟩ | ⟨-, -, e⟩ | ⟨-, -, e⟩
  · cases (exec_toInstr_of_fails (c := .chkcap) e).symm.trans h; exact .inl rfl
  · cases (exec_toInstr_of_fails (c := .chkcap) e).symm.trans h; exact .inr (.inl rfl)
  · cases (exec_toInstr_of_passes (c := .chkcap) e).symm.trans h; exact .inr (.inr rfl)

end

/-- Settles O32: the three outcomes of the capacity test. -/
theorem chkcapDecidesFit : Obligations.ChkcapDecidesFit := by
  refine ⟨decodeCommand_encodeCommand .chkcap, fun s =>
    ⟨fun h => exec_toInstr_of_fails (c := .chkcap) (capacityTest_of_illegal h),
      fun hl hw hh hn hover => ?_,
      fun hl hw hh hn hfits => exec_toInstr_of_passes (c := .chkcap) (capacityTest_of_fits hl hw hh hn hfits)⟩⟩
  exact ⟨_, exec_toInstr_of_fails (c := .chkcap) (capacityTest_of_over hl hw hh hn hover), rfl,
    availBytes_toNat s hl hw hh⟩

/-- Over legal operands `CHKCAP` ends with `CapacityExceeded` or with OK, by the length of the stream (R137). -/
theorem chkcap_err_of_legal {s t : State} (hl : LsbLegal s) (hw : WLegal s) (hh : HLegal s) (hn : LenLegal s)
    (h : exec .chkcap s = .next t) :
    (totalBits s < 32 + 8 * s.plen.toNat ∧ t.err = .capacityExceeded) ∨
    (32 + 8 * s.plen.toNat ≤ totalBits s ∧ t.err = .ok) := by
  rcases Nat.lt_or_ge (totalBits s) (32 + 8 * s.plen.toNat) with hover | hfits
  · exact .inl ⟨hover, exec_toInstr_err (c := .chkcap) h (capacityTest_of_over hl hw hh hn hover)⟩
  · exact .inr ⟨hfits, exec_toInstr_err (c := .chkcap) h (capacityTest_of_fits hl hw hh hn hfits)⟩

/-- Settles O33: both codes are known from the length of the stream, and the rest is arithmetic of the boundary. -/
theorem chkcapBoundary : Obligations.ChkcapBoundary := by
  intro s t hl hw hh hn h
  rcases chkcap_err_of_legal hl hw hh hn h with ⟨hover, herr⟩ | ⟨hfits, herr⟩ <;> rw [herr]
  · exact ⟨fun h32 => iff_of_false nofun (by omega), fun _ => rfl, fun h32 hexact => by omega, fun _ _ => rfl⟩
  · exact ⟨fun h32 => iff_of_true rfl (by omega), fun hsmall => by omega, fun _ _ => rfl,
      fun h32 hmore => by omega⟩

/-- Settles O34: the test is a function of the four operands, which `CHKCAP` itself leaves alone, and `ENCODE` begins
with the same test. -/
theorem chkcapIsPure : Obligations.ChkcapIsPure := by
  refine ⟨fun s s' t t' hd hw hh hl hp h h' => ?_, fun s t h => ?_, fun s t h => ?_, fun s t u h hu => ?_⟩
  · have htest : capacityTest s' = capacityTest s := capacityTest_congr hd hw hh hl hp
    have herr : t'.err = t.err :=
      (exec_toInstr_err (c := .chkcap) h' htest).trans (exec_toInstr_err (c := .chkcap) h rfl).symm
    refine ⟨herr, fun hcap => ?_⟩
    obtain ⟨hrec, -, -⟩ := errorInfoWrittenOnlyWithItsCodes.1 .chkcap s t h
    obtain ⟨hrec', -, -⟩ := errorInfoWrittenOnlyWithItsCodes.1 .chkcap s' t' h'
    obtain ⟨ha, hr, hls⟩ := hrec hcap
    obtain ⟨ha', hr', hls'⟩ := hrec' (herr.trans hcap)
    refine ⟨BitVec.eq_of_toNat_eq ?_, hr'.trans (hp.trans hr.symm), hls'.trans (hl.trans hls.symm)⟩
    rw [ha, ha', totalBits, hw, hh, hl]
  · rcases exec_toInstr_cases (c := .chkcap) h with ⟨f, hf, rfl⟩ | ⟨hn, rfl⟩
    · have hsame := (capacityTest_recordInfo_setErr s f.info f.kind).trans hf
      refine (exec_toInstr_of_fails (c := .chkcap) hsame).trans ?_
      rw [raise_eq, recordInfo_setErr_idem]
    · exact exec_toInstr_of_passes (c := .chkcap) ((capacityTest_recordInfo_setErr s none .ok).trans hn)
  · rcases exec_chkcap_cases h with rfl | rfl | rfl
    · exact ⟨rfl, fun _ => ⟨rfl, rfl, rfl⟩⟩
    · exact ⟨rfl, fun hne => absurd rfl hne⟩
    · exact ⟨rfl, fun _ => ⟨rfl, rfl, rfl⟩⟩
  · exact (exec_toInstr_err (c := .encode) hu rfl).trans (exec_toInstr_err (c := .chkcap) h rfl).symm

end Sys2Proof.Machine
end

section
/-! PROOFS. The image `ENCODE` leaves (`43_encode.md` R147, R148): which stream index names a bit of `DST`, the stream
bit where one does, the carrier where none does, and nothing outside the grid. -/

namespace Sys2Proof.Machine

open Sys2Proof.Claims

/-- A bit of channel byte `c` of pixel `p` is named by one index, if it is below the depth, and by none otherwise
(R73, R107). -/
theorem curMap_names_iff {w l i p c k : Nat} (hl : 1 ≤ l) (hc : c < 3) :
    (4 * p + c = (curMap w l i).addr w ∧ k = (curMap w l i).sh) ↔ k < l ∧ i = (3 * p + c) * l + k := by
  rw [addr_curMap, sh_curMap]
  constructor
  · rintro ⟨haddr, rfl⟩
    have hbyte : 3 * p + c = i / l := by omega
    exact ⟨Nat.mod_lt i hl, by rw [hbyte, Nat.div_add_mod']⟩
  · rintro ⟨hk, rfl⟩
    obtain ⟨hbyte, hbit⟩ := mul_add_div_mod (q := 3 * p + c) hk
    rw [hbyte, hbit]
    exact ⟨by omega, rfl⟩

section
variable (s : State)

/-- The positions of the stream are a function of the width and the depth (R73). -/
theorem streamPos_congr {s t : State} (hw : t.w = s.w) (hl : t.lsb = s.lsb) (i : Nat) :
    t.streamPos i = s.streamPos i := by
  rw [State.streamPos, State.streamPos, hw, hl]

/-- The copy of the grid moves no stream index. -/
@[simp] theorem streamPos_copyBytes (n i : Nat) : (copyBytes s n).streamPos i = s.streamPos i :=
  streamPos_congr (copyBytes_w ..) (copyBytes_lsb ..) i

/-- The copy of the grid keeps the stream. -/
@[simp] theorem streamBit_copyBytes (n i : Nat) : (copyBytes s n).streamBit i = s.streamBit i := by
  have hpay : memRead (copyBytes s n) .pay = memRead s .pay := funext fun a => by simp [memRead_copyBytes]
  simp [State.streamBit, hpay]

/-- The byte of a stream index below `Total` is inside the grid (R73, R108). -/
theorem streamPos_addr_lt_gridBytes {i : Nat} (hi : i < s.total) : (s.streamPos i).addr s.w.toNat < s.gridBytes := by
  have hw0 : 0 < s.w.toNat := Nat.pos_of_ne_zero fun e => by simp [State.total, e] at hi
  exact addr_lt (Nat.mod_lt _ hw0) (curMap_y_lt hi)

end

section
variable {s : State} (h : capacityTest s = none)
include h

/-- A grid with room for the header has a column (R147). -/
theorem wPos_of_capacityTest : s.WPos := by
  obtain ⟨-, hfit⟩ := capacityTest_eq_none h
  refine Nat.pos_of_ne_zero fun e => ?_
  simp [State.total, streamLen, headerBits, e] at hfit

/-- Every stream index is below `Total` once the test has passed (R147). -/
theorem lt_total_of_capacityTest {i : Nat} (hi : i < streamLen s.plen.toNat) : i < s.total :=
  hi.trans_le (capacityTest_eq_none h).2

/-- Each stream bit is where `CurMap` says: no later index names its bit (R148, R151). -/
theorem encodeBody_placed {i : Nat} (hi : i < streamLen s.plen.toNat) :
    bitOf (memRead (encodeBody s) .dst ((s.streamPos i).addr s.w.toNat)) (s.streamPos i).sh = s.streamBit i := by
  obtain ⟨⟨hl, -⟩, -⟩ := capacityTest_eq_none h
  have hinj : ∀ i', i < i' → ¬((s.streamPos i).addr s.w.toNat = (s.streamPos i').addr s.w.toNat ∧
      (s.streamPos i).sh = (s.streamPos i').sh) := fun i' hlt hsame =>
    hlt.ne ((indicesNameDistinctStorageBits _ _ i i' (wPos_of_capacityTest h) hl.1 hl.2).1 hsame.1 hsame.2)
  simpa [encodeBody] using placeBits_placed (copyBytes s s.gridBytes) (streamLen s.plen.toNat) (by simpa using hl.2)
    (by rw [copyBytes_lsb]; exact hl.1) hi fun i' hlt _ => by simpa using hinj i' hlt

/-- A bit of `DST` that no stream index names is as the copy of the grid left it (R148). -/
theorem encodeBody_unplaced {a j : Nat}
    (hnone : ∀ i < streamLen s.plen.toNat, ¬(a = (s.streamPos i).addr s.w.toNat ∧ j = (s.streamPos i).sh)) :
    bitOf (memRead (encodeBody s) .dst a) j = bitOf (memRead (copyBytes s s.gridBytes) .dst a) j := by
  obtain ⟨⟨hl, -⟩, -⟩ := capacityTest_eq_none h
  exact placeBits_other _ a _ (by simpa using hl.2) (by rw [copyBytes_lsb]; exact hl.1) j (by simpa using hnone)

/-- A byte of `DST` that no stream index is in is as the copy of the grid left it. -/
theorem memRead_encodeBody_unplaced {a : Nat}
    (hnone : ∀ i < streamLen s.plen.toNat, a ≠ (s.streamPos i).addr s.w.toNat) :
    memRead (encodeBody s) .dst a = memRead (copyBytes s s.gridBytes) .dst a :=
  byte_ext fun _ _ => encodeBody_unplaced h fun i hi hnamed => hnone i hi hnamed.1

/-- `ENCODE` keeps `DST` outside the grid (R148). -/
theorem memRead_encodeBody_outside {a : Nat} (ha : s.gridBytes ≤ a) :
    memRead (encodeBody s) .dst a = memRead s .dst a := by
  have hnone : ∀ i < streamLen s.plen.toNat, a ≠ (s.streamPos i).addr s.w.toNat := fun i hi =>
    ((streamPos_addr_lt_gridBytes s (lt_total_of_capacityTest h hi)).trans_le ha).ne'
  rw [memRead_encodeBody_unplaced h hnone, memRead_copyBytes, if_neg fun hin => Nat.not_lt.2 ha hin.2]

/-- `ENCODE` keeps the alpha bytes of the carrier (R148). -/
theorem memRead_encodeBody_alpha {p : Nat} (hp : 4 * p + 3 < s.gridBytes) :
    memRead (encodeBody s) .dst (4 * p + 3) = memRead s .src (4 * p + 3) := by
  have halpha : ∀ i, 4 * p + 3 ≠ (s.streamPos i).addr s.w.toNat := fun i => by
    rw [State.streamPos, addr_curMap]; omega
  rw [memRead_encodeBody_unplaced h fun i _ => halpha i, memRead_copyBytes, if_pos ⟨rfl, hp⟩]

/-- The bits of the R, G and B bytes after `ENCODE`: the stream bit of the index that names the bit, if the stream
has one, else the carrier's bit (R148). -/
theorem bitOf_encodeBody {p c k : Nat} (hp : 4 * p + c < s.gridBytes) (hc : c < 3) :
    bitOf (memRead (encodeBody s) .dst (4 * p + c)) k =
      if k < s.lsb.toNat ∧ (3 * p + c) * s.lsb.toNat + k < streamLen s.plen.toNat then
        s.streamBit ((3 * p + c) * s.lsb.toNat + k)
      else bitOf (memRead s .src (4 * p + c)) k := by
  obtain ⟨⟨hl, -⟩, -⟩ := capacityTest_eq_none h
  split_ifs with hin
  · obtain ⟨haddr, hsh⟩ := (curMap_names_iff (w := s.w.toNat) hl.1 hc).2 ⟨hin.1, rfl⟩
    have hplaced := encodeBody_placed h hin.2
    rwa [State.streamPos, ← haddr, ← hsh] at hplaced
  · rw [encodeBody_unplaced h, memRead_copyBytes, if_pos ⟨rfl, hp⟩]
    intro i hi hnamed
    obtain ⟨hk, rfl⟩ := (curMap_names_iff hl.1 hc).1 hnamed
    exact hin ⟨hk, hi⟩

end

/-- Settles O36: the test passes, and the three kinds of byte and bit are those of the lemmas above. -/
theorem encodeWritesStreamAndNothingElse : Obligations.EncodeWritesStreamAndNothingElse := by
  refine ⟨decodeCommand_encodeCommand .encode, fun s hl hw hh hn hfits => ?_⟩
  have htest : capacityTest s = none := capacityTest_of_fits hl hw hh hn hfits
  obtain ⟨t, hrun, hframe, hsrc, hpay, hdst⟩ := exec_dst_of_passes (c := .encode) rfl htest
  refine ⟨t, hrun, hframe, hsrc, hpay, fun a ha => (hdst a).trans (memRead_encodeBody_outside htest ha),
    fun p hp => ?_⟩
  have hextent : s.gridBytes = 4 * (s.w.toNat * s.h.toNat) := Nat.mul_assoc ..
  refine ⟨(hdst _).trans (memRead_encodeBody_alpha htest (by omega)), fun c hc k _ => ?_⟩
  rw [hdst]
  exact bitOf_encodeBody htest (by omega) hc

end Sys2Proof.Machine
end

section
/-! PROOFS. `ENCODE` as a command (`43_encode.md` R146, R149, R150): it fails as `CHKCAP` does, keeps what it reads and
is a function of it. -/

namespace Sys2Proof.Machine

open Sys2Proof.Claims

section
variable {s t : State} {c : Command}

/-- The operand registers and the model's own fields are left alone by every command but `DECODE`, which sets `PLEN`
(R149). -/
theorem exec_sameOperands (h : exec c.toInstr s = .next t) (hc : c ≠ .decode) :
    SameOperands s t ∧ SameModelFields s t := by
  rcases exec_toInstr_cases h with ⟨f, -, rfl⟩ | ⟨-, rfl⟩
  · simp [SameOperands, SameModelFields]
  · cases c with
    | decode => exact absurd rfl hc
    | _ => simp [SameOperands, SameModelFields, commandBody, encodeBody]

/-- The test of `CHKCAP` and `ENCODE` does not fail for want of a header (R146). -/
theorem capacityTest_kind_ne_imageTooSmall {f : Failure} (h : capacityTest s = some f) : f.kind ≠ .imageTooSmall := by
  rcases capacityTest_cases s with ⟨-, e⟩ | ⟨-, -, e⟩ | ⟨-, -, e⟩ <;> cases e.symm.trans h <;> exact nofun

/-- Where `ENCODE` fails, `CHKCAP` answers the same state (R146). -/
theorem exec_chkcap_of_encode_fails (h : exec .encode s = .next t) (hne : t.err ≠ .ok) :
    exec .chkcap s = .next t := by
  rcases exec_toInstr_cases (c := .encode) h with ⟨f, hf, rfl⟩ | ⟨-, rfl⟩
  · exact exec_toInstr_of_fails (c := .chkcap) hf
  · exact absurd rfl hne

/-- A stream bit below the stream's length depends on the length and the payload bytes below it alone (R72). -/
theorem streamBit_congr {n i : Nat} {pay pay' : Nat → Byte} (hi : i < streamLen n)
    (hpay : ∀ k < n, pay' k = pay k) : Machine.streamBit n pay' i = Machine.streamBit n pay i := by
  unfold Machine.streamBit
  split_ifs with hhdr
  · rfl
  · have hbyte : (i - headerBits) / byteBits < n := by
      simp only [streamLen, headerBits, byteBits] at *; omega
    rw [hpay _ hbyte]

/-- The image inside the grid is a function of the geometry, the stream and the carrier (R150). -/
theorem memRead_encodeBody_congr (hs : capacityTest s = none) (ht : capacityTest t = none) (hw : t.w = s.w)
    (hh : t.h = s.h) (hl : t.lsb = s.lsb) (hp : t.plen = s.plen)
    (hsrc : ∀ a < s.gridBytes, memRead t .src a = memRead s .src a)
    (hpay : ∀ k < s.plen.toNat, memRead t .pay k = memRead s .pay k) {a : Nat} (ha : a < s.gridBytes) :
    memRead (encodeBody t) .dst a = memRead (encodeBody s) .dst a := by
  have hpos : ∀ i, t.streamPos i = s.streamPos i := streamPos_congr hw hl
  have hbit : ∀ i < streamLen s.plen.toNat, t.streamBit i = s.streamBit i := fun i hi => by
    rw [State.streamBit, State.streamBit, hp, streamBit_congr hi hpay]
  have hgrid : t.gridBytes = s.gridBytes := by rw [State.gridBytes, State.gridBytes, hw, hh]
  refine byte_ext fun j _ => ?_
  by_cases hnamed : ∃ i < streamLen s.plen.toNat, a = (s.streamPos i).addr s.w.toNat ∧ j = (s.streamPos i).sh
  · obtain ⟨i, hi, rfl, rfl⟩ := hnamed
    have hplaced := encodeBody_placed ht (hp ▸ hi)
    rw [hpos, hw, hbit i hi] at hplaced
    exact hplaced.trans (encodeBody_placed hs hi).symm
  · have hnone : ∀ i < streamLen s.plen.toNat, ¬(a = (s.streamPos i).addr s.w.toNat ∧ j = (s.streamPos i).sh) :=
      fun i hi hat => hnamed ⟨i, hi, hat⟩
    rw [encodeBody_unplaced hs hnone, encodeBody_unplaced ht (by simpa only [hp, hw, hpos] using hnone),
      memRead_copyBytes, memRead_copyBytes, hgrid, if_pos ⟨rfl, ha⟩, if_pos ⟨rfl, ha⟩, hsrc a ha]

end

/-- Settles O35: the outcomes of the capacity test, which `CHKCAP` makes as well. -/
theorem encodeFailsExactlyAsChkcap : Obligations.EncodeFailsExactlyAsChkcap := by
  refine ⟨fun s => ⟨fun h => exec_toInstr_of_fails (c := .encode) (capacityTest_of_illegal h),
    fun hl hw hh hn hover => ?_⟩, fun s t h => ?_, fun s t h => ?_⟩
  · exact ⟨_, exec_toInstr_of_fails (c := .encode) (capacityTest_of_over hl hw hh hn hover), rfl,
      availBytes_toNat s hl hw hh⟩
  · rcases exec_toInstr_cases (c := .chkcap) h with ⟨f, hf, rfl⟩ | ⟨hpass, rfl⟩
    · have hne : f.kind ≠ .ok := (failsWith_of_capacityTest hf).kind_ne_ok
      exact ⟨fun _ => exec_toInstr_of_fails (c := .encode) hf, fun hok => absurd hok hne⟩
    · exact ⟨fun hne => absurd rfl hne, fun _ => ⟨_, exec_toInstr_of_passes (c := .encode) hpass, rfl⟩⟩
  · rcases exec_toInstr_cases (c := .encode) h with ⟨f, hf, rfl⟩ | ⟨-, rfl⟩
    · exact capacityTest_kind_ne_imageTooSmall hf
    · exact nofun

/-- Settles O37: `ENCODE` writes `DST` and is none of the commands that write the registers named. -/
theorem encodeKeepsItsInputs : Obligations.EncodeKeepsItsInputs := by
  intro s t h
  obtain ⟨hops, hmodel⟩ := exec_sameOperands (c := .encode) h nofun
  have hbitv : t.bitv = s.bitv := by_contra fun hne => nomatch (exec_changes_bitv (c := .encode) h hne).1
  exact ⟨exec_sameSpace (c := .encode) h nofun, exec_sameSpace (c := .encode) h nofun, hops,
    exec_sameCursor (c := .encode) h nofun nofun, hbitv, hmodel⟩

/-- Settles O38: the test is a function of the operands, and the image one of the operands, the carrier and the
payload. -/
theorem encodeIsDeterministic : Obligations.EncodeIsDeterministic := by
  intro s s' t t' hd hw hh hl hp hsrc hpay h h'
  have htest : capacityTest s' = capacityTest s := capacityTest_congr hd hw hh hl hp
  have herr : t'.err = t.err :=
    (exec_toInstr_err (c := .encode) h' htest).trans (exec_toInstr_err (c := .encode) h rfl).symm
  refine ⟨herr, fun hok a ha => ?_, fun hcap => ?_⟩
  · obtain ⟨hpass, rfl⟩ := exec_toInstr_ok (c := .encode) h hok
    obtain ⟨hpass', rfl⟩ := exec_toInstr_ok (c := .encode) h' (herr.trans hok)
    rw [memRead_setErr, memRead_setErr]
    exact memRead_encodeBody_congr hpass hpass' hw hh hl hp hsrc hpay ha
  · have hcap' : t'.err = .capacityExceeded := herr.trans hcap
    have hchk := exec_chkcap_of_encode_fails h (by rw [hcap]; exact nofun)
    have hchk' := exec_chkcap_of_encode_fails h' (by rw [hcap']; exact nofun)
    exact (chkcapIsPure.1 s s' t t' hd hw hh hl hp hchk hchk').2 hcap

end Sys2Proof.Machine
end

section
/-! PROOFS. The round trip (`43_encode.md` R152): a grid that holds the bits of a stream decodes to that stream. -/

namespace Sys2Proof.Machine

open Sys2Proof.Claims

section
variable {s : State} {n : Nat} {pay : Nat → Byte}

/-- Assembly looks at the bits it assembles alone (R74). -/
theorem assemble_congr {g g' : Nat → Bool} {st count : Nat} (h : ∀ j < count, g (st + j) = g' (st + j)) :
    assemble g st count = assemble g' st count := by
  induction count with
  | zero => rfl
  | succ count ih =>
    rw [assemble, assemble, ih fun j hj => h j (Nat.lt_succ_of_lt hj), h count (Nat.lt_succ_self count)]

/-- `DECODE` passes its tests over legal operands and a declared length that fits (R162). -/
theorem decodeTest_of_fits (hl : s.LsbOk) (hw : s.WOk) (hh : s.HOk) (hfits : streamLen s.declaredLen ≤ s.total) :
    decodeTest s = none := by
  have h32 : headerBits ≤ s.total := (Nat.le_add_right ..).trans hfits
  exact (if_neg (not_not.2 ⟨hl, hw, hh⟩)).trans ((if_neg (Nat.not_lt.2 h32)).trans (if_neg (Nat.not_lt.2 hfits)))

/-- `SRC` holds the bits of the stream of a payload, each where `CurMap` says (R148, R161). -/
def HoldsStream (s : State) (n : Nat) (pay : Nat → Byte) : Prop :=
  ∀ i < streamLen n, s.srcBit i = Machine.streamBit n pay i

/-- The declared length of a grid that holds a stream is the stream's (R163). -/
theorem HoldsStream.declaredLen_eq (h : HoldsStream s n pay) (hn : n < 2 ^ 32) : s.declaredLen = n := by
  refine Eq.trans ?_ (streamReadsBack n pay hn).1
  refine assemble_congr fun j hj => h _ ?_
  simp only [streamLen, headerBits, byteBits] at *
  omega

/-- A payload byte read from a grid that holds a stream is the stream's (R74, R162). -/
theorem HoldsStream.payloadByte_eq (h : HoldsStream s n pay) (hn : n < 2 ^ 32) {k : Nat} (hk : k < n) :
    payloadByte s.srcBit k = pay k := by
  refine Eq.trans (congrArg (BitVec.ofNat 8) ?_) ((streamReadsBack n pay hn).2 k)
  refine assemble_congr fun j hj => h _ ?_
  simp only [streamLen, headerBits, byteBits] at *
  omega

/-- `DECODE` on a grid that holds a stream that fits ends with its length and its payload (R162). -/
theorem HoldsStream.exec_decode (h : HoldsStream s n pay) (hn : n < 2 ^ 32) (hl : s.LsbOk) (hw : s.WOk) (hh : s.HOk)
    (hfits : streamLen n ≤ s.total) :
    ∃ t, exec .decode s = .next t ∧ t.err = .ok ∧ t.plen = BitVec.ofNat 64 n ∧
      ∀ k < n, memRead t .pay k = pay k := by
  have hlen : s.declaredLen = n := h.declaredLen_eq hn
  have htest : decodeTest s = none := decodeTest_of_fits hl hw hh (hlen ▸ hfits)
  refine ⟨_, exec_toInstr_of_passes (c := .decode) htest, rfl, congrArg (BitVec.ofNat 64) hlen, fun k hk => ?_⟩
  rw [memRead_setErr, commandBody, decodeBody, memRead_setPlen, memRead_unpackBytes, hlen, if_pos ⟨rfl, hk⟩]
  exact h.payloadByte_eq hn hk

end

/-- The image of `ENCODE`, put in `SRC` under the same geometry, holds the stream (R148, R152). -/
theorem holdsStream_of_image {s u : State} (h : capacityTest s = none) (hw : u.w = s.w) (hl : u.lsb = s.lsb)
    (himg : ∀ a < s.gridBytes, memRead u .src a = memRead (encodeBody s) .dst a) :
    HoldsStream u s.plen.toNat (memRead s .pay) := by
  intro i hi
  have hin := streamPos_addr_lt_gridBytes s (lt_total_of_capacityTest h hi)
  have hpos : u.streamPos i = s.streamPos i := streamPos_congr hw hl i
  rw [State.srcBit, chanBit, hpos, hw, himg _ hin]
  exact encodeBody_placed h hi

/-- Settles O40: the image holds the stream, and `DECODE` on such a grid returns it. -/
theorem decodeInvertsEncode : Obligations.DecodeInvertsEncode := by
  intro s t u h hok hd hw hh hl himg
  obtain ⟨htest, rfl⟩ := exec_toInstr_ok (c := .encode) h hok
  obtain ⟨⟨hlsb, hwok, hhok, hlen⟩, hfits⟩ := capacityTest_eq_none htest
  have hholds : HoldsStream u s.plen.toNat (memRead s .pay) :=
    holdsStream_of_image htest hw hl fun a ha => (himg a ha).trans (memRead_setErr ..)
  have htotal : u.total = s.total := by rw [State.total, State.total, hw, hh, hl]
  obtain ⟨v, hrun, hverr, hplen, hpay⟩ := hholds.exec_decode hlen (by rwa [State.LsbOk, hl])
    (by rwa [State.WOk, hw, hd]) (by rwa [State.HOk, hh, hd]) (htotal ▸ hfits)
  exact ⟨v, hrun, hverr, by rw [hplen, BitVec.ofNat_toNat, BitVec.setWidth_eq], hpay⟩

end Sys2Proof.Machine
end

section
/-! PROOFS. `ENCODE` by its parts (`43_encode.md` R153): after the copy and the seek, each round of `BIT.PUT` and
`CUR.ADV` places one more stream bit, as one more iteration of `placeBits` does. -/

namespace Sys2Proof.Machine

open Sys2Proof.Claims

section
variable {s t u : State}

/-! ### host events -/

/-- A command as a host event runs as its row (R83). -/
theorem runEvent_evCmd (c : Command) (s : State) : runEvent (evCmd c) s = exec c.toInstr s :=
  runWord_of_decodes (decodeTx_encode _)

/-- A register write as a host event (R176). -/
theorem runEvent_evWr {rn : RegNum} (v : Word) (hrn : rn ≠ 0x0F) (s : State) :
    runEvent (evWr rn v) s = .next (writeReg s rn v) :=
  (runWord_of_decodes (decodeTx_encode _)).trans (exec_wr_of_ne_cmd s rn v hrn)

/-- A command whose tests pass, at the head of a list of events. -/
theorem runEvents_evCmd_of_passes {c : Command} (es : List HostEvent) (h : commandTest c s = none) :
    runEvents s (evCmd c :: es) = runEvents ((commandBody c s).setErr .ok) es :=
  runEvents_cons s es ((runEvent_evCmd c s).trans (exec_toInstr_of_passes h))

/-! ### one bit -/

/-- Reading memory ignores the cursor. -/
@[simp] theorem memRead_setCursor (s : State) (v : Word) (p : Pos) (sp : Space) (a : Nat) :
    memRead (s.setCursor v p) sp a = memRead s sp a := by
  cases sp <;> rfl

/-- A bit write in `DST` reads the same over two states that read the same there. -/
theorem memRead_putBit_congr (h : SameSpace .dst s t) (w : Nat) (p : Pos) (b : Bool) :
    SameSpace .dst (putBit s w p b) (putBit t w p b) := by
  intro a
  rw [putBit, putBit, memRead_memWrite, memRead_memWrite, h, h]

/-! ### the rounds -/

/-- The geometry is as before. -/
abbrev SameGeometry (s u : State) : Prop := u.w = s.w ∧ u.h = s.h ∧ u.lsb = s.lsb ∧ u.dimBits = s.dimBits

/-- The geometry of an `ENCODE` that succeeds is legal for the cursor and for bit accesses. -/
theorem SameGeometry.legal (hg : SameGeometry s u) (h : capacityTest s = none) : u.GeomOk ∧ u.HOk := by
  obtain ⟨⟨hl, hw, hh, -⟩, -⟩ := capacityTest_eq_none h
  have hw0 := wPos_of_capacityTest h
  obtain ⟨ew, eh, el, ed⟩ := hg
  simp only [State.GeomOk, State.LsbOk, State.WOk, State.WPos, State.HOk, ew, eh, el, ed]
  exact ⟨⟨hl, hw, hw0⟩, hh⟩

/-- The state after the copy, the seek and `n` rounds: `DST` is as after the copy and `n` placed bits, and the cursor is
at index `n` over the geometry of the start. -/
structure PartsDone (s : State) (n : Nat) (u : State) : Prop where
  geometry : SameGeometry s u
  cursor : CursorInv u
  index : u.idx.toNat = n
  status : u.err = .ok
  image : SameSpace .dst (placeBits (copyBytes s s.gridBytes) n) u

variable {n : Nat} (h : capacityTest s = none)
include h

/-- After `n` rounds the cursor is at the position of stream index `n` (R104). -/
theorem PartsDone.pos_eq (hu : PartsDone s n u) : u.pos = s.streamPos n := by
  obtain ⟨ew, -, el, -⟩ := hu.geometry
  obtain ⟨-, hpos, -⟩ := hu.cursor
  rw [hpos (hu.geometry.legal h).1, hu.index, ew, el, State.streamPos]

/-- Before the first round: the copy, `ARG` 0 and the seek (R153). -/
theorem runEvents_copy_seek :
    ∃ u, runEvents s [evCmd .gcopy, evWr 0x04 0, evCmd .curSeek] = .next u ∧ PartsDone s 0 u := by
  obtain ⟨⟨-, hw, hh, -⟩, -⟩ := capacityTest_eq_none h
  have hcopy : commandTest .gcopy s = none := if_neg (not_not.2 ⟨hw, hh⟩)
  have hgeom : SameGeometry s (writeReg ((commandBody .gcopy s).setErr .ok) 0x04 0) :=
    ⟨copyBytes_w .., copyBytes_h .., copyBytes_lsb .., copyBytes_dimBits ..⟩
  obtain ⟨hl, hw', hw0⟩ := (hgeom.legal h).1
  have hseek := commandTest_curSeek_eq_none_iff.2 ⟨hl, hw', hw0, Nat.two_pow_pos _⟩
  rw [runEvents_evCmd_of_passes _ hcopy, runEvents_cons _ _ (runEvent_evWr 0 (by decide) _),
    runEvents_evCmd_of_passes _ hseek]
  exact ⟨_, rfl, hgeom, setCursor_cursorInv ⟨hl, hw', hw0⟩ (Nat.two_pow_pos _), rfl, rfl,
    fun a => memRead_congr rfl rfl a⟩

/-- One round: `BIT.PUT` at the position of index `n`, then `CUR.ADV` to index `n + 1` (R153). -/
theorem runEvents_round (hu : PartsDone s n u) (hn : n < s.total) :
    ∃ v, runEvents u [evCmd (.bitPut (s.streamBit n)), evCmd .curAdv] = .next v ∧ PartsDone s (n + 1) v := by
  obtain ⟨⟨hl, hw, hw0⟩, hh⟩ := hu.geometry.legal h
  obtain ⟨ew, eh, -, ed⟩ := hu.geometry
  have hpos : u.pos = s.streamPos n := hu.pos_eq h
  have hrow : u.cury.toNat < u.h.toNat := by
    rw [eh]; exact (congrArg Pos.y hpos).trans_lt (curMap_y_lt hn)
  have hput : commandTest (.bitPut (s.streamBit n)) u = none := bitAccessTest_of_inside hl hw hw0 hh hrow
  have hcur : CursorInv ((commandBody (.bitPut (s.streamBit n)) u).setErr .ok) :=
    cursorInv_congr hu.cursor ⟨rfl, rfl, rfl⟩ ⟨rfl, rfl, rfl, rfl, rfl⟩
  have hnext : u.idx.toNat + 1 < u.dimBits.idxLimit := by
    obtain ⟨⟨hsl, hsw, hsh, -⟩, -⟩ := capacityTest_eq_none h
    rw [hu.index, ed]
    exact Nat.lt_of_le_of_lt hn (total_lt_idxLimit s hsl hsw hsh)
  have hadv : commandTest .curAdv ((commandBody (.bitPut (s.streamBit n)) u).setErr .ok) = none :=
    commandTest_curAdv_eq_none_iff.2 ⟨⟨hl, hw, hw0⟩, (Nat.lt_sub_of_add_lt hnext).ne⟩
  rw [runEvents_evCmd_of_passes _ hput, runEvents_evCmd_of_passes _ hadv]
  refine ⟨_, rfl, hu.geometry, commandBody_cursorInv hcur hadv,
    (idx_succ_toNat hnext).trans (congrArg (· + 1) hu.index), rfl, fun a => ?_⟩
  rw [memRead_setErr, commandBody, memRead_setCursor, memRead_setErr, commandBody, placeBits, copyBytes_w,
    streamPos_copyBytes, streamBit_copyBytes, hpos, ew]
  exact memRead_putBit_congr hu.image _ _ _ a

/-- `n` rounds (R153). -/
theorem runEvents_rounds (hu : PartsDone s 0 u) (hn : n ≤ s.total) :
    ∃ v, runEvents u ((List.range n).flatMap fun i => [evCmd (.bitPut (s.streamBit i)), evCmd .curAdv]) = .next v ∧
      PartsDone s n v := by
  induction n with
  | zero => exact ⟨u, rfl, hu⟩
  | succ n ih =>
    obtain ⟨v, hrun, hv⟩ := ih (Nat.le_of_lt hn)
    rw [List.range_succ, List.flatMap_append, runEvents_append u _ _ hrun, List.flatMap_singleton]
    exact runEvents_round h hv hn

end

/-- Settles O39: the copy and the seek, then as many rounds as the stream has bits. -/
theorem encodeEqualsItsParts : Obligations.EncodeEqualsItsParts := by
  intro s t h hok
  have hcursor : SameCursor s t := exec_sameCursor (c := .encode) h nofun nofun
  obtain ⟨htest, rfl⟩ := exec_toInstr_ok (c := .encode) h hok
  obtain ⟨u, hstart, hu⟩ := runEvents_copy_seek htest
  obtain ⟨v, hrounds, hv⟩ := runEvents_rounds htest hu (capacityTest_eq_none htest).2
  refine ⟨v, (runEvents_append s _ _ hstart).trans hrounds, fun a => ?_, hv.index, hv.status, hcursor⟩
  exact (hv.image a).trans (memRead_setErr ..).symm

end Sys2Proof.Machine
end

section
/-! PROOFS. `DECODE` as a command (`44_decode.md` R162 to R165): its three errors in their order, and the length and
the payload it writes when none of them occurs. -/

namespace Sys2Proof.Machine

open Sys2Proof.Claims

section
variable {s t : State}

/-! ### the tests and their outcomes -/

/-- `DECODE` tests its operands first (R162). -/
theorem decodeTest_of_illegal (h : ¬(s.LsbOk ∧ s.WOk ∧ s.HOk)) : decodeTest s = some invalidParameter := if_pos h

/-- Over legal operands `DECODE` tests whether the grid has room for a header (R162, R190). -/
theorem decodeTest_of_small (hl : s.LsbOk) (hw : s.WOk) (hh : s.HOk) (hsmall : s.total < headerBits) :
    decodeTest s = some ⟨.imageTooSmall, none⟩ :=
  (if_neg (not_not.2 ⟨hl, hw, hh⟩)).trans (if_pos hsmall)

/-- Where there is a header, `DECODE` tests the length it declares (R162, R164). -/
theorem decodeTest_of_over (hl : s.LsbOk) (hw : s.WOk) (hh : s.HOk) (h32 : headerBits ≤ s.total)
    (hover : s.total < streamLen s.declaredLen) :
    decodeTest s = some ⟨.invalidDeclaredLength, some ⟨s.availBytes, BitVec.ofNat 64 s.declaredLen, s.lsb⟩⟩ :=
  (if_neg (not_not.2 ⟨hl, hw, hh⟩)).trans ((if_neg (Nat.not_lt.2 h32)).trans (if_pos hover))

/-- What `DECODE` has established when its tests pass (R162). -/
theorem decodeTest_eq_none (h : decodeTest s = none) :
    (s.LsbOk ∧ s.WOk ∧ s.HOk) ∧ streamLen s.declaredLen ≤ s.total := by
  rcases decodeTest_cases s with ⟨-, e⟩ | ⟨-, -, e⟩ | ⟨-, -, -, e⟩ | ⟨hops, -, hfits, -⟩
  · cases e.symm.trans h
  · cases e.symm.trans h
  · cases e.symm.trans h
  · exact ⟨hops, hfits⟩

/-! ### the length and the payload -/

variable (s)

/-- The stream a grid declares, in bits (R72, R163). -/
theorem streamLen_declaredLen : streamLen s.declaredLen = headerValue s * 8 + 32 := by
  rw [declaredLen_eq_headerValue, streamLen, headerBits, byteBits, Nat.add_comm, Nat.mul_comm]

/-- A register holds the declared length whole (R163). -/
theorem ofNat_declaredLen_toNat : (BitVec.ofNat 64 s.declaredLen).toNat = s.declaredLen :=
  Nat.mod_eq_of_lt ((declaredLen_lt s).trans (by decide))

/-- A payload byte as the sum of its eight bits in `SRC` (R74, R162). -/
theorem payloadByte_srcBit (k : Nat) : payloadByte s.srcBit k =
    BitVec.ofNat 8 (∑ j ∈ Finset.range 8, (bitAt s .src (32 + 8 * k + j)).toNat * 2 ^ j) :=
  congrArg (BitVec.ofNat 8) (assemble_eq_sum s.srcBit (32 + 8 * k) 8)

/-- `PAY` after the body of `DECODE`: the declared bytes from `SRC`, every other byte as before (R162). -/
theorem memRead_decodeBody_pay (k : Nat) : memRead (decodeBody s) .pay k =
    if k < s.declaredLen then payloadByte s.srcBit k else memRead s .pay k := by
  rw [decodeBody, memRead_setPlen, memRead_unpackBytes]
  exact if_congr (and_iff_right rfl) rfl rfl

/-- The body of `DECODE` sets `PLEN` to the declared length (R162). -/
theorem decodeBody_plen_toNat : (decodeBody s).plen.toNat = s.declaredLen := ofNat_declaredLen_toNat s

/-- The body of `DECODE` changes nothing but `PLEN` and `PAY` (R162). -/
theorem decodeBody_frame : decodeBody s = { s with plen := (decodeBody s).plen, pay := (decodeBody s).pay } := by
  obtain ⟨m, hm⟩ := decodeBody_eq s
  rw [hm]

end

/-- Settles O42: the tests pass, and the body has the frame of `decodeBody_frame` and the bytes of
`memRead_decodeBody_pay`. -/
theorem decodeReadsLengthAndPayload : Obligations.DecodeReadsLengthAndPayload := by
  refine ⟨decodeCommand_encodeCommand .decode, fun s hl hw hh _ hfits => ?_⟩
  have hrun := exec_toInstr_of_passes (c := .decode)
    (decodeTest_of_fits hl hw hh ((streamLen_declaredLen s).trans_le hfits))
  refine ⟨_, hrun, congrArg (State.setErr · .ok) (decodeBody_frame s),
    (decodeBody_plen_toNat s).trans (declaredLen_eq_headerValue s),
    exec_sameSpace (c := .decode) hrun nofun, exec_sameSpace (c := .decode) hrun nofun, fun k => ?_⟩
  rw [memRead_setErr, commandBody, memRead_decodeBody_pay, declaredLen_eq_headerValue, payloadByte_srcBit]

/-- Settles O43: the three failures of the test, in the order of its branches. -/
theorem decodeErrors : Obligations.DecodeErrors := by
  refine fun s => ⟨fun h => exec_toInstr_of_fails (c := .decode) (decodeTest_of_illegal h),
    fun hl hw hh hsmall => exec_toInstr_of_fails (c := .decode) (decodeTest_of_small hl hw hh hsmall),
    fun hl hw hh h32 hover => ?_⟩
  have htest := decodeTest_of_over hl hw hh h32 (hover.trans_eq (streamLen_declaredLen s).symm)
  exact ⟨_, exec_toInstr_of_fails (c := .decode) htest, rfl, availBytes_toNat s hl hw hh,
    (ofNat_declaredLen_toNat s).trans (declaredLen_eq_headerValue s)⟩

/-- Settles O44: a failure records and does nothing else, and the body is that of O42. -/
theorem decodeHasNoPartialResult : Obligations.DecodeHasNoPartialResult := by
  intro s t h
  refine ⟨fun hne => ?_, fun hok => ?_⟩
  · rcases exec_toInstr_cases (c := .decode) h with ⟨f, -, rfl⟩ | ⟨-, rfl⟩
    · exact ⟨fun sp a => by simp, by simp [SameOperands]⟩
    · exact absurd rfl hne
  · obtain ⟨-, rfl⟩ := exec_toInstr_ok (c := .decode) h hok
    refine ⟨(decodeBody_plen_toNat s).trans (declaredLen_eq_headerValue s), fun k hk => ?_⟩
    rw [← declaredLen_eq_headerValue] at hk
    rw [memRead_setErr, commandBody, memRead_decodeBody_pay, if_pos hk, payloadByte_srcBit]

end Sys2Proof.Machine
end

section
/-! PROOFS. `DECODE` as a function (`44_decode.md` R168): its tests and its result look at the geometry and at the
bits of the source grid below `Total`, and at nothing else. -/

namespace Sys2Proof.Machine

open Sys2Proof.Claims

section
variable {s t : State}

/-- The declared length depends on the first 32 bits of `SRC` alone (R163). -/
theorem declaredLen_congr (h : ∀ i < headerBits, t.srcBit i = s.srcBit i) : t.declaredLen = s.declaredLen :=
  assemble_congr fun j hj => by rw [Nat.zero_add]; exact h j hj

/-- A payload byte of a stream depends on the bits of that stream alone (R74, R162). -/
theorem payloadByte_congr {g g' : Nat → Bool} {n k : Nat} (hk : k < n) (h : ∀ i < streamLen n, g i = g' i) :
    payloadByte g k = payloadByte g' k := by
  refine congrArg (BitVec.ofNat 8) (assemble_congr fun j hj => h _ ?_)
  simp only [streamLen, headerBits, byteBits] at *
  omega

variable (hgeom : SameGeometry s t) (hsrc : ∀ a < s.gridBytes, memRead t .src a = memRead s .src a)
include hgeom hsrc

/-- The bits below `Total` are those of the source grid (R108, R161). -/
theorem srcBit_congr {i : Nat} (hi : i < s.total) : t.srcBit i = s.srcBit i := by
  obtain ⟨hw, -, hl, -⟩ := hgeom
  rw [State.srcBit, State.srcBit, chanBit, chanBit, streamPos_congr hw hl, hw,
    hsrc _ (streamPos_addr_lt_gridBytes s hi)]

/-- A grid with room for a header declares one length. -/
theorem declaredLen_congr_of_header (h32 : headerBits ≤ s.total) : t.declaredLen = s.declaredLen :=
  declaredLen_congr fun _ hi => srcBit_congr hgeom hsrc (hi.trans_le h32)

/-- The tests of `DECODE` are a function of the geometry and the source grid (R168). -/
theorem decodeTest_congr : decodeTest t = decodeTest s := by
  obtain ⟨hw, hh, hl, hd⟩ := hgeom
  have htotal : t.total = s.total := by rw [State.total, State.total, hw, hh, hl]
  have hlegal : (t.LsbOk ∧ t.WOk ∧ t.HOk) = (s.LsbOk ∧ s.WOk ∧ s.HOk) := by
    rw [State.LsbOk, State.WOk, State.HOk, hw, hh, hl, hd]
  have havail : t.availBytes = s.availBytes := by rw [State.availBytes, State.availBytes, htotal]
  have hlen := declaredLen_congr_of_header ⟨hw, hh, hl, hd⟩ hsrc
  rcases decodeTest_cases s with ⟨hbad, e⟩ | ⟨hops, hsmall, e⟩ | ⟨hops, h32, hover, e⟩ | ⟨hops, h32, hfits, e⟩ <;>
    rw [e]
  · exact decodeTest_of_illegal (hlegal ▸ hbad)
  all_goals obtain ⟨hl', hw', hh'⟩ := hlegal.mpr hops
  · exact decodeTest_of_small hl' hw' hh' (htotal ▸ hsmall)
  · rw [decodeTest_of_over hl' hw' hh' (htotal ▸ h32) (by rwa [htotal, hlen h32]), havail, hlen h32, hl]
  · exact decodeTest_of_fits hl' hw' hh' (by rwa [htotal, hlen h32])

end

/-- Settles O45: the tests are a function of the source, and so are the length and the bytes below it. -/
theorem decodeIsDeterministic : Obligations.DecodeIsDeterministic := by
  intro s s' t t' hd hw hh hl hsrc h h'
  have hgeom : SameGeometry s s' := ⟨hw, hh, hl, hd⟩
  have herr : t'.err = t.err := (exec_toInstr_err (c := .decode) h' (decodeTest_congr hgeom hsrc)).trans
    (exec_toInstr_err (c := .decode) h rfl).symm
  refine ⟨herr, fun hok => ?_, fun hover => ?_⟩
  · obtain ⟨htest, rfl⟩ := exec_toInstr_ok (c := .decode) h hok
    obtain ⟨-, rfl⟩ := exec_toInstr_ok (c := .decode) h' (herr.trans hok)
    obtain ⟨-, hfits⟩ := decodeTest_eq_none htest
    have hlen : s'.declaredLen = s.declaredLen :=
      declaredLen_congr_of_header hgeom hsrc ((Nat.le_add_right ..).trans hfits)
    refine ⟨congrArg (BitVec.ofNat 64) hlen, fun k hk => ?_⟩
    have hk' : k < s.declaredLen := hk.trans_eq (decodeBody_plen_toNat s)
    simp only [memRead_setErr, commandBody, memRead_decodeBody_pay, hlen, if_pos hk']
    exact payloadByte_congr hk' fun i hi => srcBit_congr hgeom hsrc (hi.trans_le hfits)
  · obtain ⟨-, hinfo, -⟩ := errorInfoWrittenOnlyWithItsCodes.1 .decode s t h
    obtain ⟨-, hinfo', -⟩ := errorInfoWrittenOnlyWithItsCodes.1 .decode s' t' h'
    obtain ⟨h32, ha, hr, hls⟩ := hinfo hover
    obtain ⟨-, ha', hr', hls'⟩ := hinfo' (herr.trans hover)
    have hlen : headerValue s' = headerValue s := by
      rw [← declaredLen_eq_headerValue, ← declaredLen_eq_headerValue, declaredLen_congr_of_header hgeom hsrc h32]
    refine ⟨BitVec.eq_of_toNat_eq ?_, BitVec.eq_of_toNat_eq (by rw [hr, hr', hlen]), by rw [hls, hls', hl]⟩
    rw [ha, ha', totalBits, hw, hh, hl]

end Sys2Proof.Machine
end

section
/-! PROOFS. `DECODE` by its parts (`44_decode.md` R169): after the seek, each round of `BIT.GET`, `RD BITV` and
`CUR.ADV` returns one more bit of the stream, because it changes neither the geometry nor `SRC`. -/

namespace Sys2Proof.Machine

open Sys2Proof.Claims

section
variable {s u : State} {n : Nat}

/-! ### one read -/

/-- A register read as a host event (R177). -/
theorem runEvent_evRd (rn : RegNum) (s : State) :
    runEvent (evRd rn) s = .next { s with reply := .word (readReg s rn) } :=
  runWord_of_decodes (i := .rd rn) (decodeTx_encode _)

/-- `BITV` as read is the bit (R27). -/
theorem bitvWord_eq (b : Bool) : bitvWord b = if b then 1 else 0 := by cases b <;> rfl

/-- A `BIT.GET` whose tests pass, with the read of `BITV` after it, returns the bit of `SRC` at the cursor and leaves
it in `BITV` (R121, R177). -/
theorem runEvents_bitGet_rd (h : commandTest .bitGet u = none) :
    runEvents u [evCmd .bitGet, evRd 0x0A] =
      .next { ((u.latchBit (chanBit u .src u.w.toNat u.pos)).setErr .ok) with
        reply := .word (if chanBit u .src u.w.toNat u.pos then 1 else 0) } := by
  rw [runEvents_evCmd_of_passes _ h, runEvents_cons _ _ (runEvent_evRd _ _), ← bitvWord_eq]
  rfl

/-! ### the rounds -/

/-- The state after the seek and `n` rounds: the geometry and `SRC` are those of the start, and the cursor is at index
`n`. -/
structure PartsRead (s : State) (n : Nat) (u : State) : Prop where
  geometry : SameGeometry s u
  cursor : CursorInv u
  index : u.idx.toNat = n
  status : u.err = .ok
  source : SameSpace .src s u

variable (hgeom : s.GeomOk)
include hgeom

/-- A geometry as before is as legal for the cursor as before. -/
theorem SameGeometry.geomOk (hg : SameGeometry s u) : u.GeomOk := by
  obtain ⟨ew, -, el, ed⟩ := hg
  simpa only [State.GeomOk, State.LsbOk, State.WOk, State.WPos, ew, el, ed] using hgeom

/-- After `n` rounds the cursor is at the position of stream index `n` (R104). -/
theorem PartsRead.pos_eq (hu : PartsRead s n u) : u.pos = s.streamPos n := by
  obtain ⟨ew, -, el, -⟩ := hu.geometry
  obtain ⟨-, hpos, -⟩ := hu.cursor
  rw [hpos (hu.geometry.geomOk hgeom), hu.index, ew, el, State.streamPos]

/-- The bit of `SRC` at the cursor after `n` rounds is the one `DECODE` reads at index `n` (R161). -/
theorem PartsRead.chanBit_eq (hu : PartsRead s n u) : chanBit u .src u.w.toNat u.pos = s.srcBit n := by
  rw [chanBit, hu.pos_eq hgeom, hu.geometry.1, hu.source]
  rfl

/-- Before the first round: `ARG` 0 and the seek (R169). -/
theorem runEvents_seek_origin : ∃ u, runEvents s [evWr 0x04 0, evCmd .curSeek] = .next u ∧ PartsRead s 0 u := by
  obtain ⟨hl, hw, hw0⟩ := hgeom
  have hseek : commandTest .curSeek (writeReg s 0x04 0) = none :=
    commandTest_curSeek_eq_none_iff.2 ⟨hl, hw, hw0, Nat.two_pow_pos _⟩
  rw [runEvents_cons _ _ (runEvent_evWr 0 (by decide) _), runEvents_evCmd_of_passes _ hseek]
  exact ⟨_, rfl, ⟨rfl, rfl, rfl, rfl⟩, setCursor_cursorInv (s := writeReg s 0x04 0) ⟨hl, hw, hw0⟩ (Nat.two_pow_pos _),
    rfl, rfl, fun a => memRead_congr rfl rfl a⟩

variable (hh : s.HOk)
include hh

/-- The read of index `n` returns the bit `DECODE` reads there and moves nothing (R169). -/
theorem runEvents_read (hu : PartsRead s n u) (hn : n < s.total) :
    ∃ v, runEvents u [evCmd .bitGet, evRd 0x0A] = .next v ∧ PartsRead s n v ∧
      v.reply = .word (if s.srcBit n then 1 else 0) := by
  obtain ⟨-, eh, -, ed⟩ := hu.geometry
  obtain ⟨hul, huw, huw0⟩ := hu.geometry.geomOk hgeom
  have huh : u.HOk := by rwa [State.HOk, eh, ed]
  have hrow : u.cury.toNat < u.h.toNat := by
    rw [eh]; exact (congrArg Pos.y (hu.pos_eq hgeom)).trans_lt (curMap_y_lt hn)
  have hcur := cursorInv_congr (t := { u with bitv := s.srcBit n }) hu.cursor ⟨rfl, rfl, rfl⟩ ⟨rfl, rfl, rfl, rfl, rfl⟩
  rw [runEvents_bitGet_rd (bitAccessTest_of_inside hul huw huw0 huh hrow), hu.chanBit_eq hgeom]
  exact ⟨_, rfl, ⟨hu.geometry, hcur, hu.index, rfl, fun a => (memRead_congr rfl rfl a).trans (hu.source a)⟩, rfl⟩

/-- `CUR.ADV` from index `n` (R105). -/
theorem runEvents_advance (hu : PartsRead s n u) (hn : n < s.total) :
    ∃ v, runEvents u [evCmd .curAdv] = .next v ∧ PartsRead s (n + 1) v := by
  have hnext : u.idx.toNat + 1 < u.dimBits.idxLimit := by
    obtain ⟨-, -, -, ed⟩ := hu.geometry
    rw [hu.index, ed]
    exact Nat.lt_of_le_of_lt hn (total_lt_idxLimit s hgeom.1 hgeom.2.1 hh)
  have hadv : commandTest .curAdv u = none := commandTest_curAdv_eq_none_iff.2
    ⟨hu.geometry.geomOk hgeom, (Nat.lt_sub_of_add_lt hnext).ne⟩
  rw [runEvents_evCmd_of_passes _ hadv]
  refine ⟨_, rfl, hu.geometry, commandBody_cursorInv hu.cursor hadv,
    (idx_succ_toNat hnext).trans (congrArg (· + 1) hu.index), rfl, fun a => ?_⟩
  rw [memRead_setErr, commandBody, memRead_setCursor]
  exact hu.source a

/-- `n` rounds (R169). -/
theorem runEvents_readRounds (hu : PartsRead s 0 u) (hn : n ≤ s.total) :
    ∃ v, runEvents u ((List.range n).flatMap fun _ => [evCmd .bitGet, evRd 0x0A, evCmd .curAdv]) = .next v ∧
      PartsRead s n v := by
  induction n with
  | zero => exact ⟨u, rfl, hu⟩
  | succ n ih =>
    obtain ⟨v, hrounds, hv⟩ := ih (Nat.le_of_lt hn)
    obtain ⟨v', hread, hv', -⟩ := runEvents_read hgeom hh hv hn
    obtain ⟨w, hadv, hw⟩ := runEvents_advance hgeom hh hv' hn
    rw [List.range_succ, List.flatMap_append, runEvents_append u _ _ hrounds, List.flatMap_singleton]
    exact ⟨w, (runEvents_append v _ [evCmd .curAdv] hread).trans hadv, hw⟩

end

/-- Settles O48: the seek, as many rounds as there are positions before `i`, and the read of position `i`, which is
below `Total`. -/
theorem decodeEqualsItsParts : Obligations.DecodeEqualsItsParts := by
  intro s t h hok i hi
  obtain ⟨htest, rfl⟩ := exec_toInstr_ok (c := .decode) h hok
  obtain ⟨⟨hl, hw, hh⟩, hfits⟩ := decodeTest_eq_none htest
  have hlen : ((commandBody .decode s).setErr .ok).plen.toNat = s.declaredLen := decodeBody_plen_toNat s
  have hin : i < s.total := by rw [hlen] at hi; exact hi.trans_le hfits
  have hw0 : s.WPos := Nat.pos_of_ne_zero fun e => by simp [State.total, e] at hin
  obtain ⟨u, hseek, hu⟩ := runEvents_seek_origin ⟨hl, hw, hw0⟩
  obtain ⟨v, hrounds, hv⟩ := runEvents_readRounds ⟨hl, hw, hw0⟩ hh hu hin.le
  obtain ⟨r, hread, hr, hreply⟩ := runEvents_read ⟨hl, hw, hw0⟩ hh hv hin
  have hbefore := (runEvents_append s _ _ hseek).trans hrounds
  exact ⟨r, (runEvents_append s _ _ hbefore).trans hread, hr.status, hreply⟩

end Sys2Proof.Machine
end

section
/-! PROOFS. Register access, the two transactions for every register number (`45_register_access.md` R176 to R178):
what a write of each register does, and what a read of each returns. -/

namespace Sys2Proof.Machine

section
variable {s : State} {rn : RegNum} {v : Word}

/-- The numbers above those of the operand registers ignore a register write (R31, R176). -/
theorem writeReg_of_gt (h : 4 < rn.toNat) : writeReg s rn v = s := by
  rcases writeReg_cases s rn v with ⟨rfl, -⟩ | ⟨rfl, -⟩ | ⟨rfl, -⟩ | ⟨rfl, -⟩ | ⟨rfl, -⟩ | ⟨-, heq⟩
  case inr.inr.inr.inr.inr => exact heq
  all_goals exact absurd h (by decide)

/-- `CMD` and the unimplemented numbers read as 0 (R177). -/
theorem readReg_of_ge (h : 0x0F ≤ rn.toNat) : readReg s rn = 0 := by
  unfold readReg
  split
  case h_16 => rfl
  all_goals omega

/-- A register read returns what the register reads as and changes nothing of the block (R177). -/
theorem exec_rd_of_readReg (h : readReg s rn = v) : exec (.rd rn) s = .next { s with reply := .word v } := by
  rw [← h]; rfl

end

/-- Settles O11, by `exec_completes`: a command ends with success or with an error, and a register transaction is a
single update. -/
theorem everyInstructionCompletes : Obligations.EveryInstructionCompletes := fun i s => exec_completes s i

/-- Settles O13: a number other than that of `CMD` is a register write, an operand register's or an ignored one, and
a write to `CMD` splits on whether its word is legal. -/
theorem registerWrite : Obligations.RegisterWrite := by
  refine ⟨fun rn v => decodePort_encodePort true rn v, fun s v => ?_⟩
  have write (rn : RegNum) (hrn : rn ≠ 0x0F) := exec_wr_of_ne_cmd s rn v hrn
  refine ⟨write 0x00 (by decide), write 0x01 (by decide), write 0x02 (by decide), write 0x03 (by decide),
    write 0x04 (by decide), fun rn hrn => ?_, fun c hc => exec_wr_cmd_of_legal hc,
    fun e he => exec_wr_cmd_of_illegal he⟩
  have hcmd : rn ≠ 0x0F := fun e => by subst e; exact absurd hrn (by decide)
  have hgt : 4 < rn.toNat := by omega
  rw [write rn hcmd, writeReg_of_gt hgt]

/-- Settles O14: every read returns `readReg`, which is a field of the state, the code of the channel, of the bit or
of the status, or 0. -/
theorem registerRead : Obligations.RegisterRead := by
  intro s
  have held (rn : RegNum) : exec (.rd rn) s = .next { s with reply := .word (readReg s rn) } := exec_rd_of_readReg rfl
  refine ⟨fun rn => ⟨_, held rn⟩, held 0x00, held 0x01, held 0x02, held 0x03, held 0x04, held 0x05, held 0x06,
    held 0x07, exec_rd_of_readReg ?channel, held 0x09, exec_rd_of_readReg (bitvWord_eq s.bitv),
    exec_rd_of_readReg ?status, held 0x0C, held 0x0D, held 0x0E, fun rn hrn => exec_rd_of_readReg (readReg_of_ge hrn)⟩
  case channel =>
    show channelWord s.curch = _
    cases s.curch <;> rfl
  case status =>
    show statusWord s.err = _
    cases s.err <;> rfl

end Sys2Proof.Machine
end

section
/-! PROOFS. Illegal command words, and what a command reports (`30_encoding.md` R81, `60_exceptions.md` R186, R187,
R192, R194, R196, R197): the decoder's rejection by the fields of the word, and the two tables of the errors read
together, command by command. -/

namespace Sys2Proof.Machine

open Sys2Proof.Claims

section
variable {s t : State} {c : Command} {w : Word} {k : ErrorKind}

/-! ### illegal command words -/

/-- Field `op` as a number (R78). -/
theorem cmdOp_toNat (w : Word) : (cmdOp w).toNat = w.toNat % 2 ^ 8 := by
  rw [cmdOp, BitVec.extractLsb'_toNat, Nat.shiftRight_zero]

/-- The reserved field is nonzero where one of its bits is 1 (R78). -/
theorem cmdReserved_ne_zero_iff : cmdReserved w ≠ 0#55 ↔ ∃ k, 9 ≤ k ∧ w.getLsbD k = true := by
  constructor
  · intro h
    by_contra hclear
    refine h (BitVec.eq_of_getLsbD_eq fun i hi => ?_)
    have hbit : w.getLsbD (9 + i) = false := eq_false_of_ne_true fun hset => hclear ⟨9 + i, by omega, hset⟩
    simp [cmdReserved, hbit]
  · rintro ⟨k, hk, hset⟩ hzero
    have hlt : k < 64 := BitVec.lt_of_getLsbD hset
    have hbit : (cmdReserved w).getLsbD (k - 9) = w.getLsbD k := by
      rw [cmdReserved, BitVec.getLsbD_extractLsb', Nat.add_sub_cancel' hk]
      simp only [show k - 9 < 55 by omega, decide_true, Bool.true_and]
    rw [hzero, hset] at hbit
    simp at hbit

/-- A command without a field `b` is rejected exactly where bit 8 is 1 (R81). -/
theorem exists_withoutB_eq_error_iff {b : Bool} : (∃ e, withoutB b c = .error e) ↔ b = true := by
  cases b <;> simp [withoutB]

/-- The decoder rejects a command word for its opcode, for its reserved field, or for bit 8 (R81). -/
theorem exists_decodeCommand_eq_error_iff : (∃ e, decodeCommand w = .error e) ↔
    (cmdOp w).toNat = 0 ∨ 9 ≤ (cmdOp w).toNat ∨ cmdReserved w ≠ 0#55 ∨ (cmdB w = true ∧ (cmdOp w).toNat ≠ 4) := by
  unfold decodeCommand
  split_ifs with hres
  · exact iff_of_true ⟨_, rfl⟩ (.inr (.inr (.inl hres)))
  · simp only [hres, false_or]
    split
    case h_4 hop => simp [hop]
    case h_9 =>
      simp only [imp_false] at *
      have hop : (cmdOp w).toNat = 0 ∨ 9 ≤ (cmdOp w).toNat := by omega
      exact iff_of_true ⟨_, rfl⟩ (hop.imp_right .inl)
    all_goals
      rename_i hop
      simp [hop, exists_withoutB_eq_error_iff]

/-! ### the two tables of the errors -/

/-- A kind is what the tables of R186 and R196 let a command report in a state: it is in the command's row, and it is
`InvalidParameter` exactly where an operand test of the row fails. -/
def FitsTables (c : Command) (s : State) (k : ErrorKind) : Prop :=
  k ∈ reportableKinds c ∧ (k = .invalidParameter ↔ ¬operandTests c s)

/-- Every command can report `InvalidParameter` (R186). -/
theorem FitsTables.of_illegal (h : ¬operandTests c s) : FitsTables c s .invalidParameter :=
  ⟨by cases c <;> simp [reportableKinds], iff_of_true rfl h⟩

/-- Over legal operands a command reports another kind of its row. -/
theorem FitsTables.of_legal (h : operandTests c s) (hne : k ≠ .invalidParameter) (hk : k ∈ reportableKinds c) :
    FitsTables c s k := ⟨hk, iff_of_false hne (not_not.2 h)⟩

/-- The test of the bit accesses fits their rows. -/
theorem bitAccessTest_fitsTables (s : State) :
    FitsTables .bitGet s ((bitAccessTest s).elim .ok Failure.kind) := by
  rcases bitAccessTest_cases s with ⟨hops, e⟩ | ⟨hops, -, e⟩ | ⟨hops, -, e⟩ <;> rw [e]
  · exact .of_illegal hops
  · exact .of_legal hops nofun (by simp [reportableKinds, outOfGrid])
  · exact .of_legal hops nofun (by simp [reportableKinds])

/-- The test of `CHKCAP` and `ENCODE` fits their rows. -/
theorem capacityTest_fitsTables (s : State) :
    FitsTables .chkcap s ((capacityTest s).elim .ok Failure.kind) := by
  rcases capacityTest_cases s with ⟨hops, e⟩ | ⟨hops, -, e⟩ | ⟨hops, -, e⟩ <;> rw [e]
  · exact .of_illegal hops
  · exact .of_legal hops nofun (by simp [reportableKinds])
  · exact .of_legal hops nofun (by simp [reportableKinds])

/-- The tests of `DECODE` fit its row. -/
theorem decodeTest_fitsTables (s : State) :
    FitsTables .decode s ((decodeTest s).elim .ok Failure.kind) := by
  rcases decodeTest_cases s with ⟨hops, e⟩ | ⟨hops, -, e⟩ | ⟨hops, -, -, e⟩ | ⟨hops, -, -, e⟩ <;> rw [e]
  · exact .of_illegal hops
  · exact .of_legal hops nofun (by simp [reportableKinds])
  · exact .of_legal hops nofun (by simp [reportableKinds])
  · exact .of_legal hops nofun (by simp [reportableKinds])

/-- The tests of every command fit its row. -/
theorem commandTest_fitsTables (c : Command) (s : State) :
    FitsTables c s ((commandTest c s).elim .ok Failure.kind) := by
  cases c with
  | curSeek =>
    simp only [commandTest]; split_ifs with hops
    · exact .of_legal hops nofun (by simp [reportableKinds])
    · exact .of_illegal hops
  | curAdv =>
    simp only [commandTest]; split_ifs with hops
    · exact .of_legal hops nofun (by simp [reportableKinds, outOfGrid])
    · exact .of_legal hops nofun (by simp [reportableKinds])
    · exact .of_illegal hops
  | gcopy =>
    simp only [commandTest]; split_ifs with hops
    · exact .of_legal hops nofun (by simp [reportableKinds])
    · exact .of_illegal hops
  | bitGet => exact bitAccessTest_fitsTables s
  | bitPut b => exact bitAccessTest_fitsTables s
  | chkcap => exact capacityTest_fitsTables s
  | encode => exact capacityTest_fitsTables s
  | decode => exact decodeTest_fitsTables s

/-- What a command reports fits the tables. -/
theorem exec_fitsTables (h : exec c.toInstr s = .next t) : FitsTables c s t.err := by
  rw [exec_toInstr_err h rfl]
  exact commandTest_fitsTables c s

/-- Code 5 is in no command's row (R186, R192). -/
theorem ne_containerCodecError_of_mem_reportableKinds (h : k ∈ reportableKinds c) : k ≠ .containerCodecError := by
  rintro rfl
  cases c <;> simp [reportableKinds] at h

/-- Every instruction keeps code 5 out of `STATUS`: it has one of the effects of a transaction word (R192). -/
theorem exec_err_ne_containerCodecError {i : Instr} (hs : s.err ≠ .containerCodecError) (h : exec i s = .next t) :
    t.err ≠ .containerCodecError := by
  cases eventEffect_of_word ((runWord_of_decodes (decodeTx_encode i)).trans h) with
  | command _ _ hrun => exact ne_containerCodecError_of_mem_reportableKinds (exec_fitsTables hrun).1
  | illegalWord _ => exact nofun
  | illegalIssue _ _ => exact nofun
  | regWrite _ _ => rwa [writeReg_err]
  | regRead _ => exact hs

/-! ### the frame of a failure -/

/-- A raised error changes `STATUS` and the error-information registers alone (R187). -/
theorem recordInfo_setErr_frame (s : State) (e : Option ErrorInfo) (k : ErrorKind) :
    (s.recordInfo e).setErr k = { s with
      err := k, eavail := ((s.recordInfo e).setErr k).eavail, ereq := ((s.recordInfo e).setErr k).ereq
      elsb := ((s.recordInfo e).setErr k).elsb } := by
  cases e <;> rfl

end

/-- Settles O4: the decoder's rejection with the fields read as numbers and bits of the word, and issue of a rejected
word. -/
theorem illegalCommandWords : Obligations.IllegalCommandWords := by
  refine ⟨fun w => ?_, fun w e s he => exec_wr_cmd_of_illegal he⟩
  rw [exists_decodeCommand_eq_error_iff, cmdReserved_ne_zero_iff, cmdOp_toNat, cmdB]

/-- Settles O49: every command completes, and what it reports fits the tables. -/
theorem operandTestsOfEachCommand : Obligations.OperandTestsOfEachCommand := by
  intro c s
  obtain ⟨t, ht, -⟩ := exec_completes s c.toInstr
  exact ⟨t, ht, (exec_fitsTables ht).2⟩

/-- Settles O50: a command that ends in an error has raised it, and what it recorded matches its code. -/
theorem errorsLeaveNoPartialEffect : Obligations.ErrorsLeaveNoPartialEffect := by
  intro c s t h hne
  rcases exec_toInstr_cases h with ⟨f, hf, rfl⟩ | ⟨-, rfl⟩
  · obtain ⟨-, -, hsame⟩ := infoMatchesCode_of_failsWith (failsWith_of_commandTest hf)
    exact ⟨recordInfo_setErr_frame s f.info f.kind, hsame⟩
  · exact absurd rfl hne

/-- Settles O51: what a command reports fits the tables, and no instruction brings code 5 into `STATUS`. -/
theorem kindsEachCommandReports : Obligations.KindsEachCommandReports :=
  ⟨fun _ _ _ h => (exec_fitsTables h).1, fun _ _ _ h hs => exec_err_ne_containerCodecError hs h⟩

end Sys2Proof.Machine
end

section
/-! PROOFS. Reset and the parameters of the two sides (`70_reset_and_hazards.md` R210, R223): every register number
reads as 0 after a reset, and the bits `DECODE` reads are placed by the width and the depth, never by the height. -/

namespace Sys2Proof.Machine

/-! ### reset -/

/-- After a reset every register number reads as 0: the fifteen registers because reset clears them, the rest because
they always do (R34, R177, R210). -/
theorem readReg_applyReset (s : State) (rn : RegNum) : readReg (applyReset s) rn = 0 := by
  unfold readReg
  split <;> rfl

/-- With nothing pending a step waits for the host (R210). -/
theorem step_of_pending_nil {s : State} (h : s.pending = []) : step s = .next s := by
  rw [step, h]; rfl

/-- Settles O10: the step applies the reset, and `readReg_applyReset` gives what each register then reads as. -/
theorem resetClearsEveryRegister : Obligations.ResetClearsEveryRegister := by
  refine ⟨fun s rest hp => ?_, fun s hp => step_of_pending_nil hp⟩
  have hstep : step s = .next (applyReset { s with pending := rest }) := step_of_pending hp
  exact ⟨_, hstep, rfl, rfl, fun rn => exec_rd_of_readReg (readReg_applyReset _ rn)⟩

/-! ### the height -/

section
variable (s : State) (v : Word)

/-- The bits `DECODE` reads do not depend on the height: `CurMap` takes the width and the depth (R101, R161). -/
theorem srcBit_height : { s with h := v }.srcBit = s.srcBit := rfl

/-- Nor does the length they declare (R163). -/
theorem declaredLen_height : { s with h := v }.declaredLen = s.declaredLen := congrArg hdrVal (srcBit_height s v)

end

/-- Settles O46: both runs pass their tests, and the length and the payload bytes the body then writes are assembled
from bits the height has no part in. -/
theorem heightOnlyBoundsDecode : Obligations.HeightOnlyBoundsDecode := by
  intro s t t' v h h' hok hok'
  obtain ⟨-, rfl⟩ := exec_toInstr_ok (c := .decode) h hok
  obtain ⟨-, rfl⟩ := exec_toInstr_ok (c := .decode) h' hok'
  refine ⟨congrArg (BitVec.ofNat 64) (declaredLen_height s v), fun k hk => ?_⟩
  have hk' : k < s.declaredLen := hk.trans_eq (decodeBody_plen_toNat s)
  simp only [memRead_setErr, commandBody, memRead_decodeBody_pay, declaredLen_height, srcBit_height, if_pos hk']

end Sys2Proof.Machine
end
